-- ==== Sys2Proof/Word.lean ====
section
/-! DEFINITION. The machine's word types: a byte (a frame-buffer byte, a glyph row, a text byte) and a 32-bit word
(a packet's header, its interval word, a response's VALUE, the time input NOW). -/

namespace Sys2Proof

/-- One byte: a frame-buffer byte (R25), a glyph row (R27), a text or link byte (R60, R42). -/
abbrev Byte := BitVec 8

/-- A 32-bit word: header and interval word of a packet (R60), VALUE of a response (R61), `NOW` (R158), and the 32-bit
ticker registers (R29). -/
abbrev Word := BitVec 32

end Sys2Proof
end

