-- ==== Sys2Proof/Syntax.lean ====
section
/-! DEFINITION. The commands of the block: one constructor for each row of the opcode table (R65). A packet's length
field is the length of its text, so it is no operand of its own (R63). -/

namespace Sys2Proof

/-- A command with its operands as its packet carries them (R63): `x` and `off` are the 16-bit field X and `y` the 8-bit
field Y (both read as two's complement by the meanings), `text` the payload bytes, `interval` the interval word. -/
inductive Instr where
  | clear                                                                          -- R91
  | setPixel (en : Bool) (x : BitVec 16) (y : BitVec 8)                            -- R92
  | getPixel (x : BitVec 16) (y : BitVec 8)                                        -- R93
  | pixelLength (mb : Bool) (text : List Byte)                                     -- R124
  | printText (mb : Bool) (x : BitVec 16) (text : List Byte)                       -- R125
  | startTicker (mb : Bool) (interval : Word) (text : List Byte)                   -- R132, d = 0
  | startTickerAt (mb : Bool) (off : BitVec 16) (interval : Word) (text : List Byte) -- R132, d = 1
  | pollTicker                                                                     -- R134
  | stopTicker                                                                     -- R137
  | readFb (row : BitVec 3) (seg : BitVec 8)                                       -- R95
  | readStatus (sel : BitVec 8)                                                    -- R138
  deriving DecidableEq, Repr

end Sys2Proof
end

