-- ==== Sys2Proof/WellFormed.lean ====
section
/-! DEFINITION. Which terms of `Instr` are commands a packet can carry. The fields' widths are in their types, so the one
check left is the text's length: LEN is 8 bits, so a text has at most MAXTEXT = 255 bytes (R5, R60, R63). -/

namespace Sys2Proof

/-- MAXTEXT: the most text bytes in one command (R5). -/
def maxText : Nat := 255

/-- A text fits its length field (R60: `0 ≤ k ≤ 255`). -/
def textFits (text : List Byte) : Bool := decide (text.length ≤ maxText)

/-- The command can be carried by a packet. -/
def Instr.wellFormed : Instr → Bool
  | .clear => true
  | .setPixel _ _ _ => true
  | .getPixel _ _ => true
  | .pixelLength _ text => textFits text
  | .printText _ _ text => textFits text
  | .startTicker _ _ text => textFits text
  | .startTickerAt _ _ _ text => textFits text
  | .pollTicker => true
  | .stopTicker => true
  | .readFb _ _ => true
  | .readStatus _ => true

end Sys2Proof
end

