-- ==== Sys2Proof/Decode.lean ====
section
/-! DEFINITION. Command packets, the decoder and the encoder (30_encoding.md). A packet reaches the block as a structured
record (`Packet`) or as bytes on a byte-wide link (`frame` cuts one packet off the front, R62). `decodePacket` is total:
it answers a command or the cause for which the packet is rejected (R152, its first three checks). -/

namespace Sys2Proof

/-- A command packet as a structured record (R60): the header, the interval word if there is one, the payload bytes. -/
structure Packet where
  header : Word
  interval : Option Word
  payload : List Byte
  deriving DecidableEq, Repr

/-- Why a packet is rejected (R150). `range` is found by a command's own check (R95, R138), the others by the decoder. -/
inductive Cause where
  | illegalOpcode
  | reservedField
  | badPacket
  | range
  deriving DecidableEq, Repr

/-! ### Header fields (R63) -/

/-- OP, H[31:28]. -/
def opField (h : Word) : BitVec 4 := h.extractLsb' 28 4

/-- F, H[27]: `en` or `mb`. -/
def fField (h : Word) : Bool := h.getLsbD 27

/-- D, H[26]: 1 = an explicit ticker offset is given. -/
def dField (h : Word) : Bool := h.getLsbD 26

/-- X, H[23:8]. -/
def xField (h : Word) : BitVec 16 := h.extractLsb' 8 16

/-- Y, LEN, SEG or SEL, H[7:0]. -/
def lowField (h : Word) : BitVec 8 := h.extractLsb' 0 8

/-- ROW, H[10:8]. -/
def rowField (h : Word) : BitVec 3 := h.extractLsb' 8 3

/-- A header made of its fields (R63); bits [25:24] are reserved and 0. -/
def headerOf (op : BitVec 4) (f d : Bool) (x : BitVec 16) (low : BitVec 8) : Word :=
  op ++ BitVec.ofBool f ++ BitVec.ofBool d ++ 0#2 ++ x ++ low

/-! ### Parts of a packet (R60, R62) -/

/-- The packet has an interval word: `H[31:28] = 0x6` (R60). -/
def hasInterval (h : Word) : Bool := opField h == 0x6#4

/-- The packet has payload bytes: `H[31:28]` in {0x4, 0x5, 0x6} (R60). -/
def hasText (h : Word) : Bool := opField h == 0x4#4 || opField h == 0x5#4 || opField h == 0x6#4

/-- How many payload bytes the header asks for: LEN for a text command, else none (R60, R62). -/
def payloadLength (h : Word) : Nat := if hasText h then (lowField h).toNat else 0

/-- A packet's length in bytes on a byte-wide link, from its header alone (R62). -/
def linkLength (h : Word) : Nat := 4 + (if hasInterval h then 4 else 0) + payloadLength h

/-- The packet's parts fit its header (R68). -/
def partsFit (p : Packet) : Bool :=
  p.interval.isSome == hasInterval p.header && p.payload.length == payloadLength p.header

/-! ### Opcode map (R65) -/

/-- The rows of the opcode map. -/
inductive Row where
  | clear | setPixel | getPixel | pixelLength | printText | startTicker | startTickerAt
  | pollTicker | stopTicker | readFb | readStatus
  deriving DecidableEq, Repr

/-- Every row, in the table's order. -/
def Row.all : List Row :=
  [.clear, .setPixel, .getPixel, .pixelLength, .printText, .startTicker, .startTickerAt,
   .pollTicker, .stopTicker, .readFb, .readStatus]

/-- Column `match` of R65. -/
def Row.pattern : Row → Word
  | .clear => 0x10000000
  | .setPixel => 0x20000000
  | .getPixel => 0x30000000
  | .pixelLength => 0x40000000
  | .printText => 0x50000000
  | .startTicker => 0x60000000
  | .startTickerAt => 0x64000000
  | .pollTicker => 0x70000000
  | .stopTicker => 0x80000000
  | .readFb => 0x90000000
  | .readStatus => 0xA0000000

/-- Column `mask` of R65. -/
def Row.mask : Row → Word
  | .clear => 0xFFFFFFFF
  | .setPixel => 0xF7000000
  | .getPixel => 0xFF000000
  | .pixelLength => 0xF7FFFF00
  | .printText => 0xF7000000
  | .startTicker => 0xF7FFFF00
  | .startTickerAt => 0xF7000000
  | .pollTicker => 0xFFFFFFFF
  | .stopTicker => 0xFFFFFFFF
  | .readFb => 0xFFFFF800
  | .readStatus => 0xFFFFFF00

/-- `(H & mask) = match` (R65). -/
def Row.selects (r : Row) (h : Word) : Bool := h &&& r.mask == r.pattern

/-- The row that selects a header, if one does. -/
def selectRow (h : Word) : Option Row := Row.all.find? fun r => r.selects h

/-- The opcode is reserved: 0x0 or 0xB..0xF (R66). -/
def reservedOpcode (h : Word) : Bool := opField h == 0x0#4 || decide (0xB#4 ≤ opField h)

/-- The command of a row, with its operands from the packet (R63). The interval word is there when the packet's parts fit
(R68), which `decodePacket` has checked. -/
def Row.command (p : Packet) (interval : Word) : Row → Instr
  | .clear => .clear
  | .setPixel => .setPixel (fField p.header) (xField p.header) (lowField p.header)
  | .getPixel => .getPixel (xField p.header) (lowField p.header)
  | .pixelLength => .pixelLength (fField p.header) p.payload
  | .printText => .printText (fField p.header) (xField p.header) p.payload
  | .startTicker => .startTicker (fField p.header) interval p.payload
  | .startTickerAt => .startTickerAt (fField p.header) (xField p.header) interval p.payload
  | .pollTicker => .pollTicker
  | .stopTicker => .stopTicker
  | .readFb => .readFb (rowField p.header) (lowField p.header)
  | .readStatus => .readStatus (lowField p.header)

/-- The decoder: the first three checks of R152 in their order, then the command. -/
def decodePacket (p : Packet) : Except Cause Instr :=
  if reservedOpcode p.header then .error .illegalOpcode
  else match selectRow p.header with
    | none => .error .reservedField
    | some r =>
      if partsFit p then .ok (r.command p (p.interval.getD 0)) else .error .badPacket

/-! ### The byte-wide link (R42, R62) -/

/-- A word's four bytes, most significant first (R42). -/
def wordBytes (w : Word) : List Byte :=
  [w.extractLsb' 24 8, w.extractLsb' 16 8, w.extractLsb' 8 8, w.extractLsb' 0 8]

/-- The word that four bytes spell, most significant first (R42). -/
def wordOfBytes (b0 b1 b2 b3 : Byte) : Word := b0 ++ b1 ++ b2 ++ b3

/-- A packet's bytes on the link: header, interval word, payload in string order (R42, R60). -/
def packetBytes (p : Packet) : List Byte :=
  wordBytes p.header ++ (p.interval.elim [] wordBytes) ++ p.payload

/-- Cuts the payload off the bytes after a packet's words: none while the bytes do not reach. -/
def framePayload (h : Word) (interval : Option Word) (bs : List Byte) : Option (Packet × List Byte) :=
  if payloadLength h ≤ bs.length then
    some (⟨h, interval, bs.take (payloadLength h)⟩, bs.drop (payloadLength h))
  else none

/-- Cuts one packet off the front of the bytes by its header alone (R62): none while the packet is not complete. -/
def frame : List Byte → Option (Packet × List Byte)
  | b0 :: b1 :: b2 :: b3 :: rest =>
    if hasInterval (wordOfBytes b0 b1 b2 b3) then
      match rest with
      | c0 :: c1 :: c2 :: c3 :: bs => framePayload (wordOfBytes b0 b1 b2 b3) (some (wordOfBytes c0 c1 c2 c3)) bs
      | _ => none
    else framePayload (wordOfBytes b0 b1 b2 b3) none rest
  | _ => none

/-- What the bytes at the front of a link are. -/
inductive LinkResult where
  | incomplete                                    -- no whole packet yet
  | command (i : Instr) (rest : List Byte)
  | rejected (c : Cause) (rest : List Byte)       -- a whole packet that is rejected, and is skipped whole (R62)
  deriving DecidableEq, Repr

/-- The decoder on bytes: total, rejecting by cause. -/
def decodeBytes (bs : List Byte) : LinkResult :=
  match frame bs with
  | none => .incomplete
  | some (p, rest) =>
    match decodePacket p with
    | .ok i => .command i rest
    | .error c => .rejected c rest

/-! ### The encoder (R63, R64, R65) -/

/-- LEN of a text (R63). -/
def lenField (text : List Byte) : BitVec 8 := BitVec.ofNat 8 text.length

/-- The packet of a well-formed command. -/
def encode : Instr → Packet
  | .clear => ⟨headerOf 0x1 false false 0 0, none, []⟩
  | .setPixel en x y => ⟨headerOf 0x2 en false x y, none, []⟩
  | .getPixel x y => ⟨headerOf 0x3 false false x y, none, []⟩
  | .pixelLength mb text => ⟨headerOf 0x4 mb false 0 (lenField text), none, text⟩
  | .printText mb x text => ⟨headerOf 0x5 mb false x (lenField text), none, text⟩
  | .startTicker mb interval text => ⟨headerOf 0x6 mb false 0 (lenField text), some interval, text⟩
  | .startTickerAt mb off interval text => ⟨headerOf 0x6 mb true off (lenField text), some interval, text⟩
  | .pollTicker => ⟨headerOf 0x7 false false 0 0, none, []⟩
  | .stopTicker => ⟨headerOf 0x8 false false 0 0, none, []⟩
  | .readFb row seg => ⟨headerOf 0x9 false false (row.setWidth 16) seg, none, []⟩
  | .readStatus sel => ⟨headerOf 0xA false false 0 sel, none, []⟩

/-- The bytes of a well-formed command on the link. -/
def encodeBytes (i : Instr) : List Byte := packetBytes (encode i)

/-! ### The opcode table's numbering -/

/-- The payload bytes of a table word: byte `j` is bits `base + 8j + 7 .. base + 8j`. DESIGN CHOICE (log 16), safe. -/
def tablePayload (base v : Nat) (n : Nat) : List Byte :=
  (List.range n).map fun j => BitVec.ofNat 8 (v / 2 ^ (base + 8 * j))

/-- The packet whose bits are `w`, numbered as opcode_table.json numbers them: the header is bits 31..0, the interval word
(OP 0x6 only) bits 63..32, the payload bytes follow; every bit at or above `nbits` is 0. -/
def tablePacket (nbits w : Nat) : Packet :=
  let v := w % 2 ^ nbits
  let h := BitVec.ofNat 32 v
  if hasInterval h then ⟨h, some (BitVec.ofNat 32 (v / 2 ^ 32)), tablePayload 64 v (payloadLength h)⟩
  else ⟨h, none, tablePayload 32 v (payloadLength h)⟩

/-- The command the decoder reads from the link bytes of a table word. -/
def decodeTableWord (nbits w : Nat) : Option Instr :=
  match decodeBytes (packetBytes (tablePacket nbits w)) with
  | .command i _ => some i
  | _ => none

end Sys2Proof
end

