-- ==== Sys2Proof/Config.lean ====
section
/-! DEFINITION. The types of what an implementation fixes (R5, R8) and the free values: what the spec leaves to any value
is an `opaque` constant here, without a body, so that no proof can see it. -/

namespace Sys2Proof

/-- NGLYPH, the number of glyphs (R5, R100). -/
abbrev nGlyph : Nat := 103

/-- An index into the glyph ROM, 0..102 (R100). -/
abbrev GlyphIndex := Fin nGlyph

/-- The eight symbols a two-byte sequence can name (R104). -/
inductive Symbol where
  | capA | capO | capU      -- Ä Ö Ü
  | smallA | smallO | smallU -- ä ö ü
  | sharpS | degree         -- ß °
  deriving DecidableEq, Repr

/-- One value for each of the eight symbols. -/
structure PerSymbol (α : Type) where
  capA : α
  capO : α
  capU : α
  smallA : α
  smallO : α
  smallU : α
  sharpS : α
  degree : α
  deriving DecidableEq, Repr

/-- One entry of the glyph ROM (R27): eight row bytes, row 0 on top, bit 7 the leftmost column, and the advance width. -/
structure Glyph where
  rows : Vector Byte 8
  width : Nat
  deriving DecidableEq, Repr

/-- MB_FALLBACK: what the decoder does with a lead byte whose pair is not recognised (R5, R108). -/
inductive MbFallback where
  | redecode
  | dropPair
  deriving DecidableEq, Repr

/-- DRAW_COLUMNS: how many columns of a glyph Draw writes (R5, R123). -/
inductive DrawColumns where
  | width
  | full8
  deriving DecidableEq, Repr

/-- The parameters that are fixed for the life of a block (R5, R8): the glyph ROM, the two-byte pairs `(lead, trail)`,
the symbols' glyph indices, and the two policies. -/
structure Params where
  rom : Vector Glyph nGlyph
  mbPairs : PerSymbol (Byte × Byte)
  accentIndex : PerSymbol GlyphIndex
  mbFallback : MbFallback
  drawColumns : DrawColumns
  deriving DecidableEq, Repr

/-- The configuration registers CFG (R23), and the configuration inputs a reset latches into them (R170). -/
structure Cfg where
  n : BitVec 8
  mxs : Bool
  mxd : Bool
  my : Bool
  deriving DecidableEq, Repr

/-! ### Free values

Each is applied to what it depends on: a glyph index and a row for the ROM entries the source does not give (R101, R102),
the number of the reset for what a reset leaves unspecified (R171, R172). -/

/-- DESIGN CHOICE (log 3), safe: the row bytes of a glyph the source does not give (R101). -/
opaque Config.romRow : GlyphIndex → Fin 8 → Byte

/-- DESIGN CHOICE (log 3), safe: the width, less one, of a glyph the source does not give, so the width is in 1..8 (R102). -/
opaque Config.romWidthLessOne : GlyphIndex → Fin 8

/-- DESIGN CHOICE (log 4), unsafe: FB_INIT (R171), the draw that byte `a` of FB holds after reset number `k`. -/
opaque Config.fbInit : (k : Nat) → (a : Nat) → Byte

/-- DESIGN CHOICE (log 5), unsafe: TK.OFFSET after reset number `k` (R172). -/
opaque Config.tkOffset : (k : Nat) → Word

/-- DESIGN CHOICE (log 5), unsafe: TK.LEN after reset number `k` (R172). -/
opaque Config.tkLen : (k : Nat) → Word

/-- DESIGN CHOICE (log 5), unsafe: TK.INTERVAL after reset number `k` (R172). -/
opaque Config.tkInterval : (k : Nat) → Word

/-- DESIGN CHOICE (log 5), unsafe: TK.LAST after reset number `k` (R172). -/
opaque Config.tkLast : (k : Nat) → Word

/-- DESIGN CHOICE (log 5), unsafe: TK.GCOUNT after reset number `k` (R172). -/
opaque Config.tkGcount : (k : Nat) → BitVec 8

/-- DESIGN CHOICE (log 5), unsafe: entry `j` of TK.GLYPH after reset number `k` (R172). -/
opaque Config.tkGlyph : (k : Nat) → (j : Nat) → GlyphIndex

end Sys2Proof
end

