-- ==== Sys2Proof/Machine/Params.lean ====
section
/-! DEFINITION. The implementation parameters' values and checks: the two glyphs the source fixes (R101), the spec's default
parameters (R5, R104), and which parameters build a machine (R6, R102, R104). -/

namespace Sys2Proof

/-- The eight symbols, in the order of R104's table. -/
def Symbol.all : List Symbol :=
  [.capA, .capO, .capU, .smallA, .smallO, .smallU, .sharpS, .degree]

/-- The value for one symbol. -/
def PerSymbol.get {α : Type} (t : PerSymbol α) : Symbol → α
  | .capA => t.capA
  | .capO => t.capO
  | .capU => t.capU
  | .smallA => t.smallA
  | .smallO => t.smallO
  | .smallU => t.smallU
  | .sharpS => t.sharpS
  | .degree => t.degree

/-- Glyph "A" (R101). -/
def glyphA : Glyph := ⟨#v[0x20, 0x50, 0x88, 0x88, 0xF8, 0x88, 0x88, 0x00], 6⟩

/-- Glyph "ä" (R101). -/
def glyphSmallAUmlaut : Glyph := ⟨#v[0x50, 0x00, 0xF0, 0x08, 0x78, 0x98, 0x68, 0x00], 6⟩

/-- The index of "A": its code point 0x41 less 32 (R101). -/
def glyphIndexA : GlyphIndex := 33

/-- The default MB_PAIRS: the symbols' UTF-8 encodings (R104, D10). -/
def defaultPairs : PerSymbol (Byte × Byte) where
  capA := (0xC3, 0x84)
  capO := (0xC3, 0x96)
  capU := (0xC3, 0x9C)
  smallA := (0xC3, 0xA4)
  smallO := (0xC3, 0xB6)
  smallU := (0xC3, 0xBC)
  sharpS := (0xC3, 0x9F)
  degree := (0xC2, 0xB0)

/-- The default ACCENT_INDEX (R104, D11). -/
def defaultAccentIndex : PerSymbol GlyphIndex where
  capA := 95
  capO := 96
  capU := 97
  smallA := 98
  smallO := 99
  smallU := 100
  sharpS := 101
  degree := 102

/-- The glyph at an index when "ä" stands at `aUmlaut`: the two fixed entries (R101), else a free glyph of width 1..8
(R102). DESIGN CHOICE (log 3), safe. -/
def romGlyph (aUmlaut g : GlyphIndex) : Glyph :=
  if g = glyphIndexA then glyphA
  else if g = aUmlaut then glyphSmallAUmlaut
  else ⟨Vector.ofFn (Config.romRow g), (Config.romWidthLessOne g).val + 1⟩

/-- The glyph ROM of the default parameters. -/
def defaultRom : Vector Glyph nGlyph := Vector.ofFn (romGlyph defaultAccentIndex.smallA)

/-- The default parameters (R5). -/
def Params.default : Params where
  rom := defaultRom
  mbPairs := defaultPairs
  accentIndex := defaultAccentIndex
  mbFallback := .redecode
  drawColumns := .width

/-- R102: every width is in 1..8 (that there are 103 entries of 8 row bytes is in the type), and the two entries of R101 are
as given. -/
def Params.romLegal (p : Params) : Bool :=
  p.rom.all (fun g => decide (1 ≤ g.width ∧ g.width ≤ 8))
    && p.rom[glyphIndexA] == glyphA
    && p.rom[p.accentIndex.get .smallA] == glyphSmallAUmlaut

/-- R104: the eight pairs are distinct. -/
def Params.pairsDistinct (p : Params) : Bool :=
  decide ((Symbol.all.map p.mbPairs.get).Nodup)

/-- R104: ACCENT_INDEX is a bijection onto 95..102 (eight distinct indices in a range of eight). -/
def Params.accentsLegal (p : Params) : Bool :=
  Symbol.all.all (fun y => decide (95 ≤ (p.accentIndex.get y).val))
    && decide ((Symbol.all.map p.accentIndex.get).Nodup)

/-- The parameters build a machine (R6, R102, R104). -/
def Params.legal (p : Params) : Bool := p.romLegal && p.pairsDistinct && p.accentsLegal

end Sys2Proof
end

