-- ==== Sys2Proof/Machine/State.lean ====
section
/-! DEFINITION. The machine's state as plain data (10_state.md), the reasons a step can stop, and the state after reset
(70_reset_and_hazards.md). The fields `now`, `pending`, `rx`, `responses` and `resets` are the model's own (log 8): the
host's side of the interface, and the counter that the free values of a reset are applied to. -/

namespace Sys2Proof.Machine

/-- STATUS of a response (R61, R150). -/
inductive Status where
  | ok
  | error (c : Cause)
  deriving DecidableEq, Repr

/-- A response: the pair (STATUS, VALUE) (R61). -/
structure Response where
  status : Status
  value : Word
  deriving DecidableEq, Repr

/-- The frame buffer's written bytes: (offset, byte) pairs, offsets strictly rising. An offset that is not listed has not
been written since the last reset. -/
abbrev Memory := List Host.Cell

/-- The ticker registers TK and the ticker glyph buffer (R29, R30). `glyph` holds the TK.GCOUNT indices (log 6). -/
structure Ticker where
  active : Bool
  offset : Word
  len : Word
  interval : Word
  last : Word
  gcount : BitVec 8
  glyph : List GlyphIndex
  deriving DecidableEq, Repr

/-- What the host gives the block (R183): a reset with the configuration inputs (R170); a packet as a structured record with
its `NOW` (R60, R158); bytes on a byte-wide link with the `NOW` at which they are handed over (R62). -/
inductive Input where
  | reset (pins : Cfg)
  | record (now : Word) (p : Packet)
  | link (now : Word) (bytes : List Byte)
  deriving DecidableEq, Repr

/-- The whole machine (R20): `params` (the glyph ROM among them), `cfg`, `fb` and `tk` are the spec's, the rest the model's
own (log 8). -/
structure State where
  params : Params
  cfg : Cfg
  fb : Memory
  tk : Ticker
  now : Word
  pending : List Input
  rx : List Byte
  responses : List Response
  resets : Nat
  deriving DecidableEq, Repr

/-- Faults: none. "Fault: none. Every packet that passes rule R152 has a meaning, and every packet that fails it gets a
status" (R163). No constructor, so no step can raise one: safe. -/
inductive Fault where
  deriving DecidableEq, Repr

/-- Refusals. -/
inductive Refusal where
  /-- Raised by a command of the opcode table that has no meaning yet (no arm of `exec` raises it now): safe. -/
  | notModelled (mnemonic : String)
  /-- Raised by a reset whose `cfg_n` input is 0, and by building a block from parameters that break R102 or R104: the model
  builds no state from such a configuration (R6, R163). The spec asks for this refusal: safe. -/
  | invalidConfiguration
  deriving DecidableEq, Repr

/-- TK after reset number `k`: INACTIVE, every other register a free value (R172). DESIGN CHOICE (logs 5 and 6), unsafe. -/
def Ticker.afterReset (k : Nat) : Ticker where
  active := false
  offset := Config.tkOffset k
  len := Config.tkLen k
  interval := Config.tkInterval k
  last := Config.tkLast k
  gcount := Config.tkGcount k
  glyph := (List.range (Config.tkGcount k).toNat).map (Config.tkGlyph k)

/-- The block right after its reset number `k` with the configuration inputs `pins` (R170, R174): CFG latched, FB with
nothing written, TK inactive, the ROM and the other parameters as given. The model's own fields are empty (log 8). -/
def State.afterReset (params : Params) (pins : Cfg) (k : Nat) : State where
  params := params
  cfg := pins
  fb := []
  tk := Ticker.afterReset k
  now := 0
  pending := []
  rx := []
  responses := []
  resets := k

/-- The configuration inputs that `State.reset` latched: N = 1, no flag. DESIGN CHOICE (log 1), unsafe: the spec leaves them
to the host (R170); an `Input.reset` reaches every other configuration. -/
def defaultPins : Cfg := ⟨1, false, false, false⟩

/-- The machine right after reset (R174), with the spec's default parameters (R5; log 2) and the inputs of log 1. -/
def State.reset : State := State.afterReset Params.default defaultPins 0

end Sys2Proof.Machine
end

