-- ==== Sys2Proof/Machine/Ops.lean ====
section
/-! DEFINITION. The named operations over the frame buffer, the coordinate transform and the state: byte read and write
(R11), Transform and its inverse (R80, R86), SetPixel (R90), responding and rejecting (R11, R61, R153), reset (R170-R174). -/

namespace Sys2Proof.Machine

/-! ### The frame buffer's bytes -/

/-- The byte written at an offset, if one has been written since the last reset. -/
def Memory.get? : Memory → Nat → Option Byte
  | [], _ => none
  | (b, v) :: m, a => if a = b then some v else if a < b then none else Memory.get? m a

/-- Writes one byte, keeping the offsets rising. -/
def Memory.set : Memory → Nat → Byte → Memory
  | [], a, v => [(a, v)]
  | (b, w) :: m, a, v =>
    if a < b then (a, v) :: (b, w) :: m
    else if a = b then (a, v) :: m
    else (b, w) :: Memory.set m a v

/-- The canonical form: offsets strictly rising. (An unlisted offset is one that nothing has written since the reset, so no
listed entry equals what an unlisted one reads as: log 17.) -/
def Memory.wf : Memory → Bool
  | [] => true
  | [_] => true
  | (a, _) :: (b, v) :: m => decide (a < b) && Memory.wf ((b, v) :: m)

/-- `FB[a]` (R11) after reset number `k`: the byte written there, else the free draw of R171. -/
def Memory.byte (k : Nat) (m : Memory) (a : Nat) : Byte := (m.get? a).getD (Config.fbInit k a)

/-- FB's size in bytes, 8·N (R25). -/
def fbSize (c : Cfg) : Nat := 8 * c.n.toNat

/-- The display's width W = 8·N in pixels (R24). -/
def displayWidth (c : Cfg) : Nat := 8 * c.n.toNat

/-- `for i in 0 .. 8*N-1: FB[i] <- 0x00` (R91, R135). -/
def Memory.clear (c : Cfg) (m : Memory) : Memory :=
  (List.range (fbSize c)).foldl (fun m a => m.set a 0) m

/-! ### The coordinate transform -/

/-- `Transform(x, y)` (R80): the byte offset and the one-hot mask, none for OutOfRange. -/
def transform (c : Cfg) (x y : Int) : Option (Nat × Byte) :=
  if x < 0 ∨ x ≥ (displayWidth c : Int) ∨ y < 0 ∨ y ≥ 8 then none
  else
    let seg := x.toNat / 8
    let col := x.toNat % 8
    let col := if c.mxs then 7 - col else col
    let seg := if c.mxd then (c.n.toNat - 1) - seg else seg
    let row := if c.my then 7 - y.toNat else y.toNat
    some (row * c.n.toNat + seg, (1 : Byte) <<< (7 - col))

/-- The logical pixel that Transform maps to bit `b` of FB byte `off` (R86). -/
def inverseTransform (c : Cfg) (off b : Nat) : Int × Int :=
  let row := off / c.n.toNat
  let seg := off % c.n.toNat
  let y := if c.my then 7 - row else row
  let s := if c.mxd then c.n.toNat - 1 - seg else seg
  let col := if c.mxs then b else 7 - b
  (8 * s + col, y)

/-! ### Pixels -/

/-- `SetPixel(x, y, en)` (R90) on the FB of a block with configuration `c` after reset number `k`: a read-modify-write of one
byte (R46), nothing when out of range (R81). -/
def setPixel (c : Cfg) (k : Nat) (m : Memory) (x y : Int) (en : Bool) : Memory :=
  match transform c x y with
  | none => m
  | some (off, mask) =>
    if en then m.set off (m.byte k off ||| mask) else m.set off (m.byte k off &&& ~~~mask)

/-- The FB bit that Transform selects, false when out of range (R93, R81). -/
def pixel (c : Cfg) (k : Nat) (m : Memory) (x y : Int) : Bool :=
  match transform c x y with
  | none => false
  | some (off, mask) => m.byte k off &&& mask != 0

/-! ### The state -/

/-- `FB[a]` of a state. -/
def State.byte (s : State) (a : Nat) : Byte := s.fb.byte s.resets a

/-- The logical pixel (x, y) of a state. -/
def State.pixel (s : State) (x y : Int) : Bool := Machine.pixel s.cfg s.resets s.fb x y

/-- The state with another frame buffer. -/
def State.setFb (s : State) (m : Memory) : State := { s with fb := m }

/-- The state with other ticker registers. -/
def State.setTk (s : State) (t : Ticker) : State := { s with tk := t }

/-- Gives one response to the host. -/
def State.answer (s : State) (r : Response) : State := { s with responses := s.responses ++ [r] }

/-- `respond(v)` (R11): ends the packet with status OK and value `v`. -/
def State.respond (s : State) (v : Word) : State := s.answer ⟨.ok, v⟩

/-- `raise ILLEGAL(cause)` (R11, R153), the block's one exceptional outcome: the state is unchanged, the response is
(cause, 0). There is no trap entry, no saved state and no return from one (R155, R156). -/
def State.reject (s : State) (c : Cause) : State := s.answer ⟨.error c, 0⟩

/-- The STATUS byte (R61, R150). -/
def Status.code : Status → Byte
  | .ok => 0
  | .error .illegalOpcode => 1
  | .error .reservedField => 2
  | .error .badPacket => 3
  | .error .range => 4

/-- A response's five bytes on a byte-wide link: STATUS, then VALUE most significant byte first (R61). -/
def Response.bytes (r : Response) : List Byte := r.status.code :: wordBytes r.value

/-! ### Reset -/

/-- Builds a block from its parameters and configuration inputs (R6, R23, R102, R170), or refuses them. -/
def State.build (params : Params) (pins : Cfg) : Except Refusal State :=
  if pins.n = 0 ∨ params.legal = false then .error .invalidConfiguration
  else .ok (State.afterReset params pins 0)

/-- A later reset of the same block (R170, R181): the inputs are latched, FB and the ticker session are discarded, the
parameters stay (R173), and a new run begins (R182). The host's inputs not yet taken stay. DESIGN CHOICE (log 12), unsafe:
bytes of an incomplete packet are discarded, and the responses start anew. -/
def State.latch (s : State) (pins : Cfg) : State :=
  { State.afterReset s.params pins (s.resets + 1) with now := s.now, pending := s.pending }

/-- A reset input: refused when `cfg_n` is 0 (R6). -/
def resetBlock (pins : Cfg) (s : State) : Host.Outcome State Fault Refusal :=
  if pins.n = 0 then .refused .invalidConfiguration else .next (s.latch pins)

end Sys2Proof.Machine
end

