-- ==== Sys2Proof/Machine/Operands.lean ====
section
/-! DEFINITION. The operand forms (R63) and what the text commands make of a text: the decoder (R105), glyph lookup (R103),
Measure (R120) and Draw (R123). -/

namespace Sys2Proof.Machine

/-! ### Numeric operands (R63) -/

/-- X: `sext_16(H[23:8])`. -/
def signedX (x : BitVec 16) : Int := x.toInt

/-- Y: `sext_8(H[7:0])`. -/
def signedY (y : BitVec 8) : Int := y.toInt

/-- An integer of the datapath as a 32-bit pattern (R10, R17). -/
def wordOfInt (v : Int) : Word := BitVec.ofInt 32 v

/-- A count as a 32-bit pattern (R10, R17). -/
def wordOfNat (v : Nat) : Word := BitVec.ofNat 32 v

/-- One bit as a 32-bit pattern: `zext_32`. -/
def wordOfBool (b : Bool) : Word := (BitVec.ofBool b).setWidth 32

/-! ### The glyph ROM (R27, R103) -/

/-- `ROM[g]`. -/
def glyphAt (p : Params) (g : GlyphIndex) : Glyph := p.rom[g]

/-- `WID(g)`. -/
def widthOf (p : Params) (g : GlyphIndex) : Nat := (glyphAt p g).width

/-- `ROW(g, r)[7 - col]`: bit `7 - col` of a row byte is column `col` (R27). -/
def glyphBit (g : Glyph) (r : Fin 8) (col : Nat) : Bool := g.rows[r].getLsbD (7 - col)

/-! ### The decoder (R105) -/

/-- The symbol that a byte pair names, if the pair is in MB_PAIRS. -/
def symbolOf (p : Params) (lead trail : Byte) : Option Symbol :=
  Symbol.all.find? fun y => p.mbPairs.get y == (lead, trail)

/-- The byte is in LEADS (R104). -/
def isLead (p : Params) (b : Byte) : Bool := Symbol.all.any fun y => (p.mbPairs.get y).1 == b

/-- A byte decoded alone (R106): glyph `b - 32` for 32..134, else nothing. -/
def decodeByte (b : Byte) : List GlyphIndex :=
  if h : 32 ≤ b.toNat ∧ b.toNat ≤ 134 then [⟨b.toNat - 32, by simp only [nGlyph]; omega⟩] else []

/-- `Decode(b, mb)` (R105). -/
def decodeText (p : Params) (mb : Bool) : List Byte → List GlyphIndex
  | [] => []
  | [b] => decodeByte b
  | b :: c :: rest =>
    match (if mb then symbolOf p b c else none) with
    | some y => p.accentIndex.get y :: decodeText p mb rest
    | none =>
      if mb && p.mbFallback == .dropPair && isLead p b then decodeText p mb rest
      else decodeByte b ++ decodeText p mb (c :: rest)

/-! ### Measure and Draw -/

/-- `Measure(gs)` (R120): the sum of `WID(g) + 1`. -/
def measureText (p : Params) : List GlyphIndex → Nat
  | [] => 0
  | g :: gs => (widthOf p g + 1) + measureText p gs

/-- `NC(g)` (R123): the columns of a glyph that Draw writes. -/
def drawnColumns (p : Params) (g : GlyphIndex) : Nat :=
  match p.drawColumns with
  | .width => widthOf p g
  | .full8 => 8

/-- Writes column `col` of a glyph at logical x, rows top to bottom (R123). -/
def drawColumn (c : Cfg) (k : Nat) (g : Glyph) (col : Nat) (x : Int) (m : Memory) : Memory :=
  (List.finRange 8).foldl (fun m r => setPixel c k m x (r.val : Int) (glyphBit g r col)) m

/-- Writes a glyph at the cursor, columns left to right (R123). -/
def drawGlyph (p : Params) (c : Cfg) (k : Nat) (g : GlyphIndex) (cur : Int) (m : Memory) : Memory :=
  (List.range (drawnColumns p g)).foldl (fun m col => drawColumn c k (glyphAt p g) col (cur + col) m) m

/-- The loop of `Draw` (R123): the frame buffer and the cursor after the glyphs, each advancing the cursor by its width
(R122). -/
def drawFrom (p : Params) (c : Cfg) (k : Nat) : List GlyphIndex → Int → Memory → Memory × Int
  | [], cur, m => (m, cur)
  | g :: gs, cur, m => drawFrom p c k gs (cur + widthOf p g) (drawGlyph p c k g cur m)

/-- `Draw(x0, gs)` (R123): the frame buffer, and the width consumed. -/
def draw (p : Params) (c : Cfg) (k : Nat) (x0 : Int) (gs : List GlyphIndex) (m : Memory) : Memory × Int :=
  ((drawFrom p c k gs x0 m).1, (drawFrom p c k gs x0 m).2 - x0)

end Sys2Proof.Machine
end

