-- ==== Sys2Proof/Machine/Flags.lean ====
section
/-! DEFINITION. The block's two flag-like bits (R31): TK.ACTIVE, and the "changed" bit POLL_TICKER responds, with the
comparisons they come from: Elapsed against the interval (R131, R134), the restart test (R135). -/

namespace Sys2Proof.Machine

/-- `Elapsed = (NOW - TK.LAST) mod 2^32` (R131). -/
def elapsed (s : State) : Word := s.now - s.tk.last

/-- A poll of this state advances: the ticker is ACTIVE and `Elapsed >= TK.INTERVAL`, unsigned (R130, R134). The response of
POLL_TICKER, "changed", is this bit (R31). -/
def pollAdvances (s : State) : Bool :=
  s.tk.active && decide ((elapsed s).toNat ≥ s.tk.interval.toNat)

/-- The offset scrolled fully past the left edge: `TK.OFFSET < -TK.LEN`, signed (R135). -/
def pastLeftEdge (offset len : Word) : Bool := decide (offset.toInt < -(len.toNat : Int))

/-- TK.OFFSET after an advance: one less, or 8·N at a restart (R135). -/
def nextOffset (c : Cfg) (offset len : Word) : Word :=
  if pastLeftEdge (offset - 1) len then wordOfNat (displayWidth c) else offset - 1

end Sys2Proof.Machine
end

