-- ==== Sys2Proof/Machine/FrameBuffer.lean ====
section
/-! DEFINITION. The frame-buffer commands (41_framebuffer.md): CLEAR, SET_PIXEL, GET_PIXEL, READ_FB. -/

namespace Sys2Proof.Machine

/-- CLEAR (R91). -/
def execClear (s : State) : Host.Outcome State Fault Refusal :=
  .next ((s.setFb (s.fb.clear s.cfg)).respond 0)

/-- SET_PIXEL (R92). -/
def execSetPixel (en : Bool) (x : BitVec 16) (y : BitVec 8) (s : State) : Host.Outcome State Fault Refusal :=
  .next ((s.setFb (setPixel s.cfg s.resets s.fb (signedX x) (signedY y) en)).respond 0)

/-- GET_PIXEL (R93). -/
def execGetPixel (x : BitVec 16) (y : BitVec 8) (s : State) : Host.Outcome State Fault Refusal :=
  .next (s.respond (wordOfBool (s.pixel (signedX x) (signedY y))))

/-- READ_FB (R95): RANGE if `seg >= N`, else the byte `FB[row*N + seg]`. -/
def execReadFb (row : BitVec 3) (seg : BitVec 8) (s : State) : Host.Outcome State Fault Refusal :=
  if seg.toNat ≥ s.cfg.n.toNat then .next (s.reject .range)
  else .next (s.respond ((s.byte (row.toNat * s.cfg.n.toNat + seg.toNat)).setWidth 32))

/-- A flush: the `8·N` READ_FB commands, row 0 first, segments in order within a row (R96). -/
def flushCommands (c : Cfg) : List Instr :=
  (List.range 8).flatMap fun row =>
    (List.range c.n.toNat).map fun seg => .readFb (BitVec.ofNat 3 row) (BitVec.ofNat 8 seg)

end Sys2Proof.Machine
end

