-- ==== Sys2Proof/Machine/Render.lean ====
section
/-! DEFINITION. The rasterizer's commands (43_render.md): PIXEL_LENGTH, PRINT_TEXT. -/

namespace Sys2Proof.Machine

/-- PIXEL_LENGTH (R124). -/
def execPixelLength (mb : Bool) (text : List Byte) (s : State) : Host.Outcome State Fault Refusal :=
  .next (s.respond (wordOfNat (measureText s.params (decodeText s.params mb text))))

/-- PRINT_TEXT (R125). -/
def execPrintText (mb : Bool) (x : BitVec 16) (text : List Byte) (s : State) : Host.Outcome State Fault Refusal :=
  let drawn := draw s.params s.cfg s.resets (signedX x) (decodeText s.params mb text) s.fb
  .next ((s.setFb drawn.1).respond (wordOfInt drawn.2))

end Sys2Proof.Machine
end

