-- ==== Sys2Proof/Machine/TickerUnit.lean ====
section
/-! DEFINITION. The ticker's commands (44_ticker.md): START_TICKER, START_TICKER.AT, POLL_TICKER, STOP_TICKER, READ_STATUS. -/

namespace Sys2Proof.Machine

/-- A session started at `offset` (R132): every TK register is written, and nothing of the old session is left (R133). -/
def startSession (s : State) (gs : List GlyphIndex) (offset interval : Word) : Ticker where
  active := true
  offset := offset
  len := wordOfNat (measureText s.params gs)
  interval := interval
  last := s.now
  gcount := BitVec.ofNat 8 gs.length
  glyph := gs

/-- START_TICKER (R132, d = 0): the message enters from the right edge. -/
def execStartTicker (mb : Bool) (interval : Word) (text : List Byte) (s : State) : Host.Outcome State Fault Refusal :=
  .next ((s.setTk (startSession s (decodeText s.params mb text) (wordOfNat (displayWidth s.cfg)) interval)).respond 0)

/-- START_TICKER.AT (R132, d = 1): the offset is given. -/
def execStartTickerAt (mb : Bool) (off : BitVec 16) (interval : Word) (text : List Byte) (s : State) :
    Host.Outcome State Fault Refusal :=
  .next ((s.setTk (startSession s (decodeText s.params mb text) (wordOfInt (signedX off)) interval)).respond 0)

/-- The frame an advance draws: the message at the offset held before the decrement, on a cleared frame buffer (R135). -/
def advanceFb (s : State) : Memory :=
  (draw s.params s.cfg s.resets s.tk.offset.toInt (s.tk.glyph.take s.tk.gcount.toNat) (s.fb.clear s.cfg)).1

/-- TK after an advance: the offset moves one column or restarts, TK.LAST is the sampled NOW (R135, R136). -/
def advanceTk (s : State) : Ticker :=
  { s.tk with offset := nextOffset s.cfg s.tk.offset s.tk.len, last := s.now }

/-- `Advance()` (R135). -/
def advance (s : State) : State := (s.setFb (advanceFb s)).setTk (advanceTk s)

/-- POLL_TICKER (R134). -/
def execPollTicker (s : State) : Host.Outcome State Fault Refusal :=
  if pollAdvances s then .next ((advance s).respond 1) else .next (s.respond 0)

/-- STOP_TICKER (R137). -/
def execStopTicker (s : State) : Host.Outcome State Fault Refusal :=
  .next ((s.setTk { s.tk with active := false }).respond 0)

/-- CFG in the READ_STATUS view (R23, R138): N in [7:0], MXS [8], MXD [9], MY [10], the rest 0. -/
def cfgView (c : Cfg) : Word :=
  c.n.setWidth 32 ||| wordOfBool c.mxs <<< 8 ||| wordOfBool c.mxd <<< 9 ||| wordOfBool c.my <<< 10

/-- What READ_STATUS reads (R138), none for a selector above 6. -/
def statusView (s : State) (sel : Nat) : Option Word :=
  match sel with
  | 0 => some (wordOfBool s.tk.active)
  | 1 => some s.tk.offset
  | 2 => some s.tk.len
  | 3 => some s.tk.interval
  | 4 => some s.tk.last
  | 5 => some (s.tk.gcount.setWidth 32)
  | 6 => some (cfgView s.cfg)
  | _ => none

/-- READ_STATUS (R138): RANGE if `sel > 6`. -/
def execReadStatus (sel : BitVec 8) (s : State) : Host.Outcome State Fault Refusal :=
  match statusView s sel.toNat with
  | some v => .next (s.respond v)
  | none => .next (s.reject .range)

end Sys2Proof.Machine
end

