-- ==== Sys2Proof/Machine/Dispatch.lean ====
section
/-! DEFINITION. One command, run to completion (R7, R47): one arm per constructor of Instr. -/

namespace Sys2Proof.Machine

def exec (i : Instr) (s : State) : Host.Outcome State Fault Refusal :=
  match i with
  | .clear => Sys2Proof.Machine.execClear s
  | .setPixel en x y => Sys2Proof.Machine.execSetPixel en x y s
  | .getPixel x y => Sys2Proof.Machine.execGetPixel x y s
  | .pixelLength mb text => Sys2Proof.Machine.execPixelLength mb text s
  | .printText mb x text => Sys2Proof.Machine.execPrintText mb x text s
  | .startTicker mb interval text => Sys2Proof.Machine.execStartTicker mb interval text s
  | .startTickerAt mb off interval text => Sys2Proof.Machine.execStartTickerAt mb off interval text s
  | .pollTicker => Sys2Proof.Machine.execPollTicker s
  | .stopTicker => Sys2Proof.Machine.execStopTicker s
  | .readFb row seg => Sys2Proof.Machine.execReadFb row seg s
  | .readStatus sel => Sys2Proof.Machine.execReadStatus sel s

end Sys2Proof.Machine
end

