-- ==== Sys2Proof/Machine/Fetch.lean ====
section
/-! DEFINITION. Where the next packet comes from (R7, R60, R62), and running one packet (R152, R153). The block fetches no
instructions from a memory (R22): the host hands it packets. -/

namespace Sys2Proof.Machine

/-- What a step finds to do, with the state after taking it. -/
inductive Fetched where
  | packet (p : Packet) (s : State)      -- a whole packet
  | received (s : State)                 -- bytes of the link, now in the receive buffer
  | reset (pins : Cfg) (s : State)       -- a reset
  | idle                                 -- nothing: the block waits for a packet (R163, R174)
  deriving DecidableEq, Repr

/-- Takes the host's next input (R183); NOW is sampled with it (R11, R158). -/
def takeInput (s : State) : Fetched :=
  match s.pending with
  | [] => .idle
  | .reset pins :: t => .reset pins { s with pending := t }
  | .record now p :: t => .packet p { s with pending := t, now := now }
  | .link now bytes :: t => .received { s with pending := t, now := now, rx := s.rx ++ bytes }

/-- A whole packet at the front of the receive buffer comes first, "the first byte after the previous packet" (R45); else the
host's next input is taken. DESIGN CHOICE (logs 9 and 11), unsafe. -/
def fetch (s : State) : Fetched :=
  match frame s.rx with
  | some (p, rest) => .packet p { s with rx := rest }
  | none => takeInput s

/-- One packet, whole: the decode checks in their order, then the command; a rejected packet changes no state (R152, R153). -/
def runPacket (p : Packet) (s : State) : Host.Outcome State Fault Refusal :=
  match decodePacket p with
  | .ok i => exec i s
  | .error c => .next (s.reject c)

end Sys2Proof.Machine
end

