-- ==== Sys2Proof/Machine/Step.lean ====
section
/-! DEFINITION. One step of the block: one packet, or one input that is not a whole packet (R7, R182, R183). -/

namespace Sys2Proof.Machine

/-- One step. A step with nothing to do leaves the state as it is: the block waits for its next packet (R163, R174;
DESIGN CHOICE, log 10, safe). -/
def step (s : State) : Host.Outcome State Fault Refusal :=
  match fetch s with
  | .packet p s' => runPacket p s'
  | .received s' => .next s'
  | .reset pins s' => resetBlock pins s'
  | .idle => .next s

/-- The state with a table word's packet at the front of the receive buffer, so that the very next step runs exactly it
(log 15). -/
def State.withFetchWord (s : State) (nbits w : Nat) : State :=
  { s with rx := packetBytes (tablePacket nbits w) ++ s.rx }

end Sys2Proof.Machine
end

