-- ==== Sys2Proof/Machine/Asm.lean ====
section
/-! DEFINITION. The assembler's commands, their operand limits, defaults and pseudo-instructions (R70, R71), the reading of one
line of assembly text, and the source library's operation set as commands (R71). No step of the machine uses this file: it is
a second way to write the same packets. -/

namespace Sys2Proof.Machine

/-! ### Assembler commands (R70, R71) -/

/-- One assembler command with its operands as written. `mb` is the optional last operand of the text commands. R71 writes
`TSTART` with an offset without `mb`; that it may carry one is DESIGN CHOICE (log 26), unsafe. -/
inductive AsmCommand where
  | clear
  | setpx (x y en : Int)
  | setpxOn (x y : Int)                                                    -- SETPX.ON, pseudo
  | setpxOff (x y : Int)                                                   -- SETPX.OFF, pseudo
  | getpx (x y : Int)
  | plen (text : List Byte) (mb : Option Int)
  | print (x : Int) (text : List Byte) (mb : Option Int)
  | tstart (text : List Byte) (ms : Int) (off : Option Int) (mb : Option Int) -- with `off`: pseudo for TSTART.AT
  | tstartAt (text : List Byte) (ms off : Int) (mb : Option Int)
  | tpoll
  | tstop
  | rdfb (row seg : Int)
  | rdst (sel : Int)
  deriving DecidableEq, Repr

/-- An integer operand within its limits, as a field of `w` bits; none if the assembler rejects it (R70). -/
def operandField (w : Nat) (lo hi v : Int) : Option (BitVec w) :=
  if lo ≤ v ∧ v ≤ hi then some (BitVec.ofInt w v) else none

/-- A bit operand, 0 or 1. -/
def operandBit (v : Int) : Option Bool :=
  if v = 0 then some false else if v = 1 then some true else none

/-- A text operand: at most 255 bytes. -/
def operandText (text : List Byte) : Option (List Byte) := if textFits text then some text else none

/-- The x, start_x or offset operand. -/
def operandX (v : Int) : Option (BitVec 16) := operandField 16 (-32768) 32767 v

/-- The y operand. -/
def operandY (v : Int) : Option (BitVec 8) := operandField 8 (-128) 127 v

/-- The `mb` operand, 1 when it is not written (R70, D9). -/
def operandMb (mb : Option Int) : Option Bool := operandBit (mb.getD 1)

/-- The interval operand, in [0, 2^32-1]. -/
def operandMs (ms : Int) : Option Word := operandField 32 0 (2 ^ 32 - 1) ms

/-- The command an assembler command encodes, none when the assembler rejects the line (R70, R71). `TSTART` with an offset and
`mb` is the start of `TSTART.AT` with that `mb`: DESIGN CHOICE (log 26), unsafe. -/
def assemble : AsmCommand → Option Instr
  | .clear => some .clear
  | .setpx x y en => do some (.setPixel (← operandBit en) (← operandX x) (← operandY y))
  | .setpxOn x y => do some (.setPixel true (← operandX x) (← operandY y))
  | .setpxOff x y => do some (.setPixel false (← operandX x) (← operandY y))
  | .getpx x y => do some (.getPixel (← operandX x) (← operandY y))
  | .plen text mb => do some (.pixelLength (← operandMb mb) (← operandText text))
  | .print x text mb => do some (.printText (← operandMb mb) (← operandX x) (← operandText text))
  | .tstart text ms none mb => do some (.startTicker (← operandMb mb) (← operandMs ms) (← operandText text))
  | .tstart text ms (some off) mb => do
    some (.startTickerAt (← operandMb mb) (← operandX off) (← operandMs ms) (← operandText text))
  | .tstartAt text ms off mb => do
    some (.startTickerAt (← operandMb mb) (← operandX off) (← operandMs ms) (← operandText text))
  | .tpoll => some .pollTicker
  | .tstop => some .stopTicker
  | .rdfb row seg => do some (.readFb (← operandField 3 0 7 row) (← operandField 8 0 255 seg))
  | .rdst sel => do some (.readStatus (← operandField 8 0 255 sel))

/-! ### Reading a line (R70) -/

/-- A token of a line. -/
inductive Token where
  | word (w : List Char)
  | int (v : Int)
  | str (bytes : List Byte)
  | comma
  | equals
  deriving DecidableEq, Repr

/-- A hexadecimal digit's value, in either case: DESIGN CHOICE (log 18), unsafe. -/
def hexDigit (c : Char) : Option Nat :=
  let n := c.toNat
  if 48 ≤ n ∧ n ≤ 57 then some (n - 48)
  else if 65 ≤ n ∧ n ≤ 70 then some (n - 55)
  else if 97 ≤ n ∧ n ≤ 102 then some (n - 87)
  else none

/-- A decimal digit's value. -/
def decDigit (c : Char) : Option Nat :=
  let n := c.toNat
  if 48 ≤ n ∧ n ≤ 57 then some (n - 48) else none

/-- The number the longest run of digits spells in a base, with what follows; `seen` says a digit was there already. -/
def lexDigits (digit : Char → Option Nat) (base : Nat) : Bool → Nat → List Char → Option (Nat × List Char)
  | seen, acc, [] => if seen then some (acc, []) else none
  | seen, acc, c :: rest =>
    match digit c with
    | some d => lexDigits digit base true (acc * base + d) rest
    | none => if seen then some (acc, c :: rest) else none

/-- A character's UTF-8 bytes (R70, G3). -/
def charBytes (c : Char) : List Byte := (String.utf8EncodeChar c).map fun u => u.toBitVec

/-- The bytes of a string up to its closing quote, with what follows: `\xHH` is one raw byte, a backslash before a quote or a
backslash writes that character, every other character its UTF-8 bytes (R70). Another escape is rejected: DESIGN CHOICE
(log 18), safe. -/
def lexString : List Char → Option (List Byte × List Char)
  | [] => none
  | c :: rest =>
    if c.toNat = 34 then some ([], rest)
    else if c.toNat = 92 then
      match rest with
      | e :: rest1 =>
        if e.toNat = 34 ∨ e.toNat = 92 then do
          let (bs, out) ← lexString rest1
          some (charBytes e ++ bs, out)
        else if e.toNat = 120 then
          match rest1 with
          | h :: l :: rest2 => do
            let hi ← hexDigit h
            let lo ← hexDigit l
            let (bs, out) ← lexString rest2
            some (BitVec.ofNat 8 (16 * hi + lo) :: bs, out)
          | _ => none
        else none
      | [] => none
    else do
      let (bs, out) ← lexString rest
      some (charBytes c ++ bs, out)

/-- A letter, a digit or a dot: what a mnemonic is made of. -/
def isWordChar (c : Char) : Bool :=
  let n := c.toNat
  (65 ≤ n && n ≤ 90) || (97 ≤ n && n ≤ 122) || (48 ≤ n && n ≤ 57) || n == 46

/-- An unsigned number: hex after `0x`, else decimal (R70). -/
def lexNumber : List Char → Option (Nat × List Char)
  | a :: b :: rest =>
    if a.toNat = 48 ∧ b.toNat = 120 then lexDigits hexDigit 16 false 0 rest
    else lexDigits decDigit 10 false 0 (a :: b :: rest)
  | cs => lexDigits decDigit 10 false 0 cs

/-- The tokens of a line up to its end or its comment (R70); `fuel` is at least the line's length. -/
def lexLine : (fuel : Nat) → List Char → Option (List Token)
  | _, [] => some []
  | 0, _ :: _ => none
  | fuel + 1, c :: rest =>
    let n := c.toNat
    if n = 59 then some []
    else if n = 32 ∨ n = 9 then lexLine fuel rest
    else if n = 44 then do some (.comma :: (← lexLine fuel rest))
    else if n = 61 then do some (.equals :: (← lexLine fuel rest))
    else if n = 34 then do
      let (bs, out) ← lexString rest
      some (.str bs :: (← lexLine fuel out))
    else if n = 45 then do
      let (v, out) ← lexDigits decDigit 10 false 0 rest
      some (.int (-(v : Int)) :: (← lexLine fuel out))
    else if (decDigit c).isSome then do
      let (v, out) ← lexNumber (c :: rest)
      some (.int v :: (← lexLine fuel out))
    else if isWordChar c then do
      some (.word ((c :: rest).takeWhile isWordChar) :: (← lexLine fuel ((c :: rest).dropWhile isWordChar)))
    else none

/-- An operand of a line. -/
inductive Operand where
  | int (v : Int)
  | str (bytes : List Byte)
  | mb (v : Int)
  deriving DecidableEq, Repr

/-- The operands of a line, separated by commas. -/
def parseOperands : List Token → Option (List Operand)
  | [] => some []
  | [.int v] => some [.int v]
  | [.str bs] => some [.str bs]
  | [.word ['m', 'b'], .equals, .int v] => some [.mb v]
  | .int v :: .comma :: t :: rest => do some (.int v :: (← parseOperands (t :: rest)))
  | .str bs :: .comma :: t :: rest => do some (.str bs :: (← parseOperands (t :: rest)))
  | _ => none

/-- A mnemonic's characters. -/
def mnemonicIs (w : List Char) (name : List Char) : Bool := w == name

/-- The command of a mnemonic and its operands (R70, R71). R71 gives `TSTART` with an offset as a form of three operands only;
that `TSTART "t", ms, off, mb=M` is accepted, as `TSTART.AT` with that `mb`, is DESIGN CHOICE (log 26), unsafe. -/
def commandOf (w : List Char) (ops : List Operand) : Option AsmCommand :=
  if mnemonicIs w ['C', 'L', 'E', 'A', 'R'] then
    match ops with | [] => some .clear | _ => none
  else if mnemonicIs w ['S', 'E', 'T', 'P', 'X'] then
    match ops with | [.int x, .int y, .int en] => some (.setpx x y en) | _ => none
  else if mnemonicIs w ['S', 'E', 'T', 'P', 'X', '.', 'O', 'N'] then
    match ops with | [.int x, .int y] => some (.setpxOn x y) | _ => none
  else if mnemonicIs w ['S', 'E', 'T', 'P', 'X', '.', 'O', 'F', 'F'] then
    match ops with | [.int x, .int y] => some (.setpxOff x y) | _ => none
  else if mnemonicIs w ['G', 'E', 'T', 'P', 'X'] then
    match ops with | [.int x, .int y] => some (.getpx x y) | _ => none
  else if mnemonicIs w ['P', 'L', 'E', 'N'] then
    match ops with
    | [.str t] => some (.plen t none)
    | [.str t, .mb v] => some (.plen t (some v))
    | _ => none
  else if mnemonicIs w ['P', 'R', 'I', 'N', 'T'] then
    match ops with
    | [.int x, .str t] => some (.print x t none)
    | [.int x, .str t, .mb v] => some (.print x t (some v))
    | _ => none
  else if mnemonicIs w ['T', 'S', 'T', 'A', 'R', 'T'] then
    match ops with
    | [.str t, .int ms] => some (.tstart t ms none none)
    | [.str t, .int ms, .mb v] => some (.tstart t ms none (some v))
    | [.str t, .int ms, .int off] => some (.tstart t ms (some off) none)
    | [.str t, .int ms, .int off, .mb v] => some (.tstart t ms (some off) (some v))
    | _ => none
  else if mnemonicIs w ['T', 'S', 'T', 'A', 'R', 'T', '.', 'A', 'T'] then
    match ops with
    | [.str t, .int ms, .int off] => some (.tstartAt t ms off none)
    | [.str t, .int ms, .int off, .mb v] => some (.tstartAt t ms off (some v))
    | _ => none
  else if mnemonicIs w ['T', 'P', 'O', 'L', 'L'] then
    match ops with | [] => some .tpoll | _ => none
  else if mnemonicIs w ['T', 'S', 'T', 'O', 'P'] then
    match ops with | [] => some .tstop | _ => none
  else if mnemonicIs w ['R', 'D', 'F', 'B'] then
    match ops with | [.int row, .int seg] => some (.rdfb row seg) | _ => none
  else if mnemonicIs w ['R', 'D', 'S', 'T'] then
    match ops with | [.int sel] => some (.rdst sel) | _ => none
  else none

/-- What a line of assembly is. -/
inductive AsmLine where
  | blank                    -- nothing, or a comment alone
  | packet (p : Packet)
  | rejected
  deriving DecidableEq, Repr

/-- One line of assembly, assembled (R70): one command per line. -/
def assembleLine (line : List Char) : AsmLine :=
  match lexLine line.length line with
  | some [] => .blank
  | some (.word w :: args) =>
    match (parseOperands args).bind fun ops => (commandOf w ops).bind assemble with
    | some i => .packet (encode i)
    | none => .rejected
  | _ => .rejected

/-! ### The source's operation set (R71) -/

/-- A call of the source library's public surface (R71). -/
inductive SourceCall where
  | construct (segmentCount : BitVec 8) (mxs mxd my : Bool)
  | setEnabled (on : Bool)
  | setIntensity (level : Fin 16)
  | clear
  | setPixel (x y : Int) (enabled : Bool)
  | pixelLength (text : List Byte)
  | printText (startX : Int) (text : List Byte) (multibyteDecode : Bool)
  | startTicker (message : List Byte) (intervalMs : Int) (startOffset : Option Int)
  | pollTicker
  | stopTicker
  deriving DecidableEq, Repr

/-- A Boolean as an assembler operand. -/
def intOfBool (b : Bool) : Int := if b then 1 else 0

/-- The block's command for a source call; none for `construct`, which is a reset, and for the two pass-through operations,
which have no command (R66, R71). -/
def SourceCall.command : SourceCall → Option AsmCommand
  | .construct _ _ _ _ => none
  | .setEnabled _ => none
  | .setIntensity _ => none
  | .clear => some .clear
  | .setPixel x y enabled => some (.setpx x y (intOfBool enabled))
  | .pixelLength text => some (.plen text none)
  | .printText startX text mb => some (.print startX text (some (intOfBool mb)))
  | .startTicker message ms none => some (.tstart message ms none none)
  | .startTicker message ms (some off) => some (.tstartAt message ms off none)
  | .pollTicker => some .tpoll
  | .stopTicker => some .tstop

/-- The input the host gives the block for a source call at time `now`, none when the block has none for it (R71, R183). -/
def SourceCall.input (now : Word) : SourceCall → Option Input
  | .construct n mxs mxd my => some (.reset ⟨n, mxs, mxd, my⟩)
  | c => (c.command.bind assemble).map fun i => .record now (encode i)

end Sys2Proof.Machine
end

