-- ==== Sys2Proof/Safety.lean ====
section
/-! DEFINITION. What claims about the block are stated with: the invariant of a running block, runs of commands (R182), and
the pixel a text gives (R123). -/

namespace Sys2Proof.Machine

/-- What holds of a block in every state a run reaches. -/
structure State.Inv (s : State) : Prop where
  /-- The parameters are ones a block can be built from (R6, R102, R104). -/
  paramsLegal : s.params.legal = true
  /-- CFG.N is in 1..255 (R23). -/
  segments : s.cfg.n ≠ 0
  /-- The frame buffer keeps its canonical form. -/
  fbCanonical : Memory.wf s.fb = true
  /-- Only offsets 0..8·N-1 exist (R25, R44). -/
  fbBounded : ∀ c ∈ s.fb, c.1 < fbSize s.cfg
  /-- TK.GLYPH holds TK.GCOUNT indices (R30). -/
  glyphCount : s.tk.glyph.length = s.tk.gcount.toNat
  /-- The length of an ACTIVE session is the Measure of its message (R29, R132). -/
  sessionLength : s.tk.active = true → s.tk.len.toNat = measureText s.params s.tk.glyph
  /-- The offset of an ACTIVE session stays in the 16-bit signed range (R17). -/
  sessionOffset : s.tk.active = true → -32768 ≤ s.tk.offset.toInt ∧ s.tk.offset.toInt ≤ 32767

/-- The state with another sample of `NOW`. -/
def State.atTime (s : State) (now : Word) : State := { s with now := now }

/-- Commands run one after the other, each with its `NOW` (R182). -/
def runCommands : List (Word × Instr) → State → Host.Outcome State Fault Refusal
  | [], s => .next s
  | (now, i) :: rest, s =>
    match exec i (s.atTime now) with
    | .next t => runCommands rest t
    | .fault f => .fault f
    | .refused r => .refused r

/-- The state after a sequence of polls, each with its `NOW`. -/
def runPolls (nows : List Word) (s : State) : Host.Outcome State Fault Refusal :=
  runCommands (nows.map fun now => (now, .pollTicker)) s

/-- The sum of a text's advance widths, what Draw returns (R122, R123). -/
def textWidth (p : Params) : List GlyphIndex → Nat
  | [] => 0
  | g :: gs => widthOf p g + textWidth p gs

/-- What Draw of `gs` at `cur` writes last to the pixel in column x and row r, none where it writes nothing (R123): a later
glyph overwrites the glyphs before it. -/
def textPixel (p : Params) : List GlyphIndex → Int → Int → Fin 8 → Option Bool
  | [], _, _, _ => none
  | g :: gs, cur, x, r =>
    match textPixel p gs (cur + widthOf p g) x r with
    | some b => some b
    | none =>
      if cur ≤ x ∧ x < cur + drawnColumns p g then some (glyphBit (glyphAt p g) r (x - cur).toNat) else none

/-- The logical pixels of a display (R80). -/
abbrev inDisplay (c : Cfg) (x y : Int) : Prop := 0 ≤ x ∧ x < (displayWidth c : Int) ∧ 0 ≤ y ∧ y < 8

/-- The header has a 1 in a bit that its opcode's rows require to be 0, case by case as R67 lists them (bits by number, not
through the masks of the opcode map). -/
abbrev reservedBitSet (h : Word) : Prop :=
  ((opField h = 0x1 ∨ opField h = 0x7 ∨ opField h = 0x8) ∧ h.extractLsb' 0 28 ≠ 0) ∨
  ((opField h = 0x2 ∨ opField h = 0x5) ∧ h.extractLsb' 24 3 ≠ 0) ∨
  (opField h = 0x3 ∧ h.extractLsb' 24 4 ≠ 0) ∨
  (opField h = 0x4 ∧ (h.extractLsb' 24 3 ≠ 0 ∨ h.extractLsb' 8 16 ≠ 0)) ∨
  (opField h = 0x6 ∧ (h.extractLsb' 24 2 ≠ 0 ∨ h.getLsbD 26 = false ∧ h.extractLsb' 8 16 ≠ 0)) ∨
  (opField h = 0x9 ∧ h.extractLsb' 11 17 ≠ 0) ∨
  (opField h = 0xA ∧ h.extractLsb' 8 20 ≠ 0)

/-- The header's opcode is reserved (R66). -/
abbrev opcodeReserved (h : Word) : Prop := opField h = 0x0 ∨ 0xB ≤ (opField h).toNat

/-- The packet's parts do not fit its header, case by case as R68 lists them. -/
abbrev partsMisfit (p : Packet) : Prop :=
  (opField p.header = 0x6 ∧ p.interval = none) ∨
  (opField p.header ≠ 0x6 ∧ p.interval ≠ none) ∨
  ((opField p.header = 0x4 ∨ opField p.header = 0x5 ∨ opField p.header = 0x6) ∧
    p.payload.length ≠ (lowField p.header).toNat) ∨
  (opField p.header ≠ 0x4 ∧ opField p.header ≠ 0x5 ∧ opField p.header ≠ 0x6 ∧ p.payload ≠ [])

/-- Everything but FB and the responses is as before. -/
structure KeepsAllButFb (s t : State) : Prop where
  params : t.params = s.params
  cfg : t.cfg = s.cfg
  tk : t.tk = s.tk
  now : t.now = s.now
  pending : t.pending = s.pending
  rx : t.rx = s.rx
  resets : t.resets = s.resets

/-- Everything but TK and the responses is as before, every FB byte among it. -/
structure KeepsAllButTk (s t : State) : Prop where
  params : t.params = s.params
  cfg : t.cfg = s.cfg
  fb : t.fb = s.fb
  bytes : ∀ a, t.byte a = s.byte a
  now : t.now = s.now
  pending : t.pending = s.pending
  rx : t.rx = s.rx
  resets : t.resets = s.resets

/-- Everything but FB, TK and the responses is as before. -/
structure KeepsAllButFbTk (s t : State) : Prop where
  params : t.params = s.params
  cfg : t.cfg = s.cfg
  now : t.now = s.now
  pending : t.pending = s.pending
  rx : t.rx = s.rx
  resets : t.resets = s.resets

/-- `t` gives one response more than `s`: status OK and the value `v`. -/
abbrev RespondsOk (s t : State) (v : Word) : Prop := t.responses = s.responses ++ [⟨.ok, v⟩]

/-- Elapsed as the spec writes it, `(NOW - TK.LAST) mod 2^32` on unsigned numbers (R131). -/
def elapsedMs (s : State) : Nat := (s.now.toNat + 2 ^ 32 - s.tk.last.toNat) % 2 ^ 32

/-- The message of a session: `TK.GLYPH[0 .. TK.GCOUNT-1]` (R135). -/
def message (t : Ticker) : List GlyphIndex := t.glyph.take t.gcount.toNat

/-- The offset at which the k-th advance draws (R139), for a display of `w` pixels, a message of length `l` and a session that
starts at `o0`. -/
def scrollOffset (w l : Nat) (o0 : Int) : Nat → Int
  | 0 => o0
  | k + 1 => if scrollOffset w l o0 k - 1 ≥ -(l : Int) then scrollOffset w l o0 k - 1 else w

/-- The byte with the leftmost `w` columns lit. -/
def leftColumns (w : Nat) : Byte := ~~~((BitVec.allOnes 8) >>> w)

/-! ### Lines of assembly as they are written (R70) -/

/-- A digit of a number, in capitals or not; R70 does not say which case a hex digit has, so both are the model's choice
(log 18). -/
def digitChar (upper : Bool) (d : Nat) : Char :=
  Char.ofNat (if d < 10 then 48 + d else if upper then 55 + d else 87 + d)

/-- The number that digits spell, read from `acc` on. -/
def digitsValue (base : Nat) : (acc : Nat) → List Nat → Nat
  | acc, [] => acc
  | acc, d :: ds => digitsValue base (acc * base + d) ds

/-- An integer as it is written: decimal, perhaps with a minus, or hexadecimal after `0x`; at least one digit (R70). -/
inductive Numeral where
  | dec (minus : Bool) (d : Fin 10) (ds : List (Fin 10))
  | hex (d : Bool × Fin 16) (ds : List (Bool × Fin 16))
  deriving DecidableEq, Repr

/-- Its characters. -/
def Numeral.chars : Numeral → List Char
  | .dec minus d ds => (if minus then ['-'] else []) ++ (d :: ds).map fun d => digitChar false d.val
  | .hex d ds => '0' :: 'x' :: (d :: ds).map fun d => digitChar d.1 d.2.val

/-- Its value. -/
def Numeral.value : Numeral → Int
  | .dec minus d ds =>
    if minus then -(digitsValue 10 0 ((d :: ds).map Fin.val) : Int) else digitsValue 10 0 ((d :: ds).map Fin.val)
  | .hex d ds => digitsValue 16 0 ((d :: ds).map fun d => d.2.val)

/-- One piece of a string as it is written: `\xHH`, an escaped quote, an escaped backslash, or a character that is neither a
quote nor a backslash (R70). -/
inductive TextPiece where
  | raw (high low : Bool × Fin 16)
  | quote
  | backslash
  | plain (c : { c : Char // c.toNat ≠ 34 ∧ c.toNat ≠ 92 })
  deriving DecidableEq, Repr

/-- Its characters (34 is the quote, 92 the backslash). -/
def TextPiece.chars : TextPiece → List Char
  | .raw h l => [Char.ofNat 92, 'x', digitChar h.1 h.2.val, digitChar l.1 l.2.val]
  | .quote => [Char.ofNat 92, Char.ofNat 34]
  | .backslash => [Char.ofNat 92, Char.ofNat 92]
  | .plain c => [c.val]

/-- The bytes it stands for: the raw byte, 0x22, 0x5C, or the character's UTF-8 bytes. -/
def TextPiece.bytes : TextPiece → List Byte
  | .raw h l => [BitVec.ofNat 8 (16 * h.2.val + l.2.val)]
  | .quote => [0x22]
  | .backslash => [0x5C]
  | .plain c => (String.utf8EncodeChar c.val).map fun u => u.toBitVec

/-- The bytes of a string as it is written. -/
def textBytes (ps : List TextPiece) : List Byte := ps.flatMap TextPiece.bytes

/-- An operand as it is written. -/
inductive Written where
  | int (n : Numeral)
  | str (ps : List TextPiece)
  | mb (n : Numeral)
  deriving DecidableEq, Repr

/-- Its characters. -/
def Written.chars : Written → List Char
  | .int n => n.chars
  | .str ps => Char.ofNat 34 :: (ps.flatMap TextPiece.chars ++ [Char.ofNat 34])
  | .mb n => 'm' :: 'b' :: '=' :: n.chars

/-- A line: the mnemonic, its operands with commas between them, and a comment if there is one. -/
def lineChars (mnemonic : List Char) (ops : List Written) (comment : Option (List Char)) : List Char :=
  mnemonic ++
    (match ops with
      | [] => []
      | o :: os => ' ' :: (o.chars ++ os.flatMap fun o => ',' :: ' ' :: o.chars)) ++
    comment.elim [] fun c => ' ' :: ';' :: c

/-- With or without a comment, the assembler reads the line as the command `a`: it gives that command's packet, or rejects the
line where `a` is rejected. -/
def readsAs (mnemonic : List Char) (ops : List Written) (a : AsmCommand) : Prop :=
  ∀ comment, assembleLine (lineChars mnemonic ops comment) =
    match assemble a with
    | some i => .packet (encode i)
    | none => .rejected

/-- The `mb` operand as it is written or left out gives the bit `m`: 1 when left out (R70). -/
abbrev mbGives (mb : Option Int) (m : Bool) : Prop := (mb = none ∧ m = true) ∨ mb = some (if m then 1 else 0)

end Sys2Proof.Machine
end

