-- ==== Sys2Proof/Certificates/Slice0/Obligations.lean ====
section
/-! DEFINITION. The statements about the model that the provers prove, each from the rules its docstring cites. -/

open Sys2Proof Sys2Proof.Machine

/-! ### Encoding -/

/-- R72: each header of the rule, with its packet's parts, is what its line of assembly encodes, and decodes to the command
that line names. -/
def Obligations.SpecHeadersAssembleAndDecode : Prop :=
  ∀ row ∈ ([
    (.setpx 0 0 1, ⟨0x28000000, none, []⟩, .setPixel true 0 0),
    (.setpx (-1) 0 1, ⟨0x28FFFF00, none, []⟩, .setPixel true 0xFFFF 0),
    (.setpx 9 2 1, ⟨0x28000902, none, []⟩, .setPixel true 9 2),
    (.getpx 9 2, ⟨0x30000902, none, []⟩, .getPixel 9 2),
    (.plen [0x41] none, ⟨0x48000001, none, [0x41]⟩, .pixelLength true [0x41]),
    (.print 0 [0x41] none, ⟨0x58000001, none, [0x41]⟩, .printText true 0 [0x41]),
    (.print (-2) [0x41] none, ⟨0x58FFFE01, none, [0x41]⟩, .printText true 0xFFFE [0x41]),
    (.print 0 [0xC3, 0xA4] none, ⟨0x58000002, none, [0xC3, 0xA4]⟩, .printText true 0 [0xC3, 0xA4]),
    (.tstart [0x41] 100 none none, ⟨0x68000001, some 0x00000064, [0x41]⟩, .startTicker true 0x64 [0x41]),
    (.tstartAt [0x41, 0x42] 100 8 none, ⟨0x6C000802, some 0x00000064, [0x41, 0x42]⟩,
      .startTickerAt true 8 0x64 [0x41, 0x42]),
    (.rdfb 3 1, ⟨0x90000301, none, []⟩, .readFb 3 1),
    (.rdst 1, ⟨0xA0000001, none, []⟩, .readStatus 1)] : List (AsmCommand × Packet × Instr)),
    (assemble row.1).map encode = some row.2.1 ∧ decodePacket row.2.1 = .ok row.2.2

/-- R63-R65: decoding the packet of a well-formed command gives the command back, every operand at every value. -/
def Obligations.DecodeOfEncodeIsTheCommand : Prop :=
  ∀ i : Instr, i.wellFormed = true → decodePacket (encode i) = .ok i

/-- R63-R68: a packet that decodes is well formed, and is the one packet of its command: no bit of it is dropped. -/
def Obligations.EncodeOfDecodeIsThePacket : Prop :=
  ∀ (p : Packet) (i : Instr), decodePacket p = .ok i → i.wellFormed = true ∧ encode i = p

/-- R42, R62: on a byte link the bytes of a well-formed command decode to it, and what follows is left. -/
def Obligations.LinkBytesDecodeToTheCommand : Prop :=
  ∀ (i : Instr) (rest : List Byte), i.wellFormed = true → decodeBytes (encodeBytes i ++ rest) = .command i rest

/-- R62: a packet's length on the link follows from its first four bytes alone, reserved opcodes included; a packet is cut off
as soon as its bytes are there, and not before; a rejected packet is skipped whole. -/
def Obligations.LinkLengthFromHeaderAlone : Prop :=
  (∀ (b0 b1 b2 b3 : Byte) (rest : List Byte),
    let h := wordOfBytes b0 b1 b2 b3
    let length :=
      if opField h = 0x6 then 4 + 4 + (lowField h).toNat
      else if opField h = 0x4 ∨ opField h = 0x5 then 4 + (lowField h).toNat
      else 4
    (length ≤ 4 + rest.length →
      ∃ p, frame (b0 :: b1 :: b2 :: b3 :: rest) = some (p, (b0 :: b1 :: b2 :: b3 :: rest).drop length) ∧
        packetBytes p = (b0 :: b1 :: b2 :: b3 :: rest).take length) ∧
    (4 + rest.length < length → frame (b0 :: b1 :: b2 :: b3 :: rest) = none)) ∧
  (∀ bs : List Byte, bs.length < 4 → frame bs = none) ∧
  ∀ (bs rest : List Byte) (c : Cause), decodeBytes bs = .rejected c rest → ∃ p, frame bs = some (p, rest)

/-- R67: a header whose opcode is not reserved is rejected with RESERVED_FIELD exactly in the rule's cases; every header is
exactly one of a row of the opcode map, ILLEGAL_OPCODE, RESERVED_FIELD. -/
def Obligations.ReservedFieldExactlyInTheListedCases : Prop :=
  ∀ p : Packet,
    (decodePacket p = .error .reservedField ↔ ¬ opcodeReserved p.header ∧ reservedBitSet p.header) ∧
    (¬ opcodeReserved p.header ∧ ¬ reservedBitSet p.header ↔ ∃ r : Row, r.selects p.header = true) ∧
    (∀ r r' : Row, r.selects p.header = true → r'.selects p.header = true → r = r') ∧
    (decodePacket p = .error .illegalOpcode ↔ opcodeReserved p.header)

/-- R152: the checks in their order, the first that fails giving the status: ILLEGAL_OPCODE, RESERVED_FIELD, BAD_PACKET, then
RANGE; only a packet that passes them all runs its command. -/
def Obligations.DecodeChecksInPriorityOrder : Prop :=
  (∀ p : Packet,
    (opcodeReserved p.header → decodePacket p = .error .illegalOpcode) ∧
    (¬ opcodeReserved p.header → reservedBitSet p.header → decodePacket p = .error .reservedField) ∧
    (¬ opcodeReserved p.header → ¬ reservedBitSet p.header → partsMisfit p → decodePacket p = .error .badPacket) ∧
    (¬ opcodeReserved p.header → ¬ reservedBitSet p.header → ¬ partsMisfit p → ∃ i, decodePacket p = .ok i)) ∧
  (∀ (p : Packet) (s : State) (c : Cause), decodePacket p = .error c → runPacket p s = .next (s.reject c)) ∧
  (∀ (p : Packet) (s : State) (row : BitVec 3) (seg : BitVec 8), decodePacket p = .ok (.readFb row seg) →
    s.cfg.n.toNat ≤ seg.toNat → runPacket p s = .next (s.reject .range)) ∧
  (∀ (p : Packet) (s : State) (sel : BitVec 8), decodePacket p = .ok (.readStatus sel) →
    6 < sel.toNat → runPacket p s = .next (s.reject .range)) ∧
  ∀ (p : Packet) (s : State) (i : Instr), decodePacket p = .ok i → runPacket p s = exec i s

/-- R68: BAD_PACKET exactly when the parts do not fit a header that is a command's, and never on a byte link. -/
def Obligations.BadPacketExactlyWhenPartsMisfit : Prop :=
  (∀ p : Packet, decodePacket p = .error .badPacket ↔
    ¬ opcodeReserved p.header ∧ ¬ reservedBitSet p.header ∧ partsMisfit p) ∧
  ∀ (bs rest : List Byte) (p : Packet), frame bs = some (p, rest) → decodePacket p ≠ .error .badPacket

/-- R153: a packet that is answered with an error leaves every part of the state as it was (FB, TK and CFG among it), and its
response is (STATUS, 0): whether the decoder or the command's own range check rejects it. -/
def Obligations.RejectedPacketChangesNothing : Prop :=
  (∀ (s s' : State) (p : Packet) (c : Cause), fetch s = .packet p s' → decodePacket p = .error c →
    ∃ t, step s = .next t ∧ t.responses = s.responses ++ [⟨.error c, 0⟩] ∧ t.params = s.params ∧ t.cfg = s.cfg ∧
      t.fb = s.fb ∧ t.tk = s.tk ∧ t.resets = s.resets ∧ ∀ a, t.byte a = s.byte a) ∧
  ∀ (i : Instr) (s t : State) (c : Cause) (v : Word), exec i s = .next t →
    t.responses = s.responses ++ [⟨.error c, v⟩] → t = s.reject c ∧ v = 0

/-- R61, R150: a response's five link bytes are its STATUS code 0..4 and then VALUE, most significant byte first. -/
def Obligations.ResponseIsFiveLinkBytes : Prop :=
  (∀ r : Response, ∃ b0 b1 b2 b3 : Byte, r.bytes = [r.status.code, b0, b1, b2, b3] ∧
    r.value.toNat = 2 ^ 24 * b0.toNat + 2 ^ 16 * b1.toNat + 2 ^ 8 * b2.toNat + b3.toNat) ∧
  (Status.ok.code = 0 ∧ (Status.error .illegalOpcode).code = 1 ∧ (Status.error .reservedField).code = 2 ∧
    (Status.error .badPacket).code = 3 ∧ (Status.error .range).code = 4)

/-- R70: every line the assembler accepts encodes a packet that decodes. -/
def Obligations.AssembledCommandsDecode : Prop :=
  ∀ (a : AsmCommand) (i : Instr), assemble a = some i → i.wellFormed = true ∧ decodePacket (encode i) = .ok i

/-- R70: for every form the assembler accepts exactly the operands within their limits, and the fields of the command carry the
operands written; `mb` is 1 when it is left out. -/
def Obligations.AssemblerFormsLimitsAndFields : Prop :=
  ∀ (x y en ms off row seg sel : Int) (text : List Byte) (mb : Option Int) (i : Instr),
    (assemble .clear = some i ↔ i = .clear) ∧
    (assemble (.setpx x y en) = some i ↔
      (-32768 ≤ x ∧ x ≤ 32767) ∧ (-128 ≤ y ∧ y ≤ 127) ∧
      ∃ (e : Bool) (xf : BitVec 16) (yf : BitVec 8),
        en = (if e then 1 else 0) ∧ xf.toInt = x ∧ yf.toInt = y ∧ i = .setPixel e xf yf) ∧
    (assemble (.getpx x y) = some i ↔
      (-32768 ≤ x ∧ x ≤ 32767) ∧ (-128 ≤ y ∧ y ≤ 127) ∧
      ∃ (xf : BitVec 16) (yf : BitVec 8), xf.toInt = x ∧ yf.toInt = y ∧ i = .getPixel xf yf) ∧
    (assemble (.plen text mb) = some i ↔
      text.length ≤ 255 ∧ ∃ m : Bool, mbGives mb m ∧ i = .pixelLength m text) ∧
    (assemble (.print x text mb) = some i ↔
      (-32768 ≤ x ∧ x ≤ 32767) ∧ text.length ≤ 255 ∧
      ∃ (m : Bool) (xf : BitVec 16), mbGives mb m ∧ xf.toInt = x ∧ i = .printText m xf text) ∧
    (assemble (.tstart text ms none mb) = some i ↔
      (0 ≤ ms ∧ ms ≤ 2 ^ 32 - 1) ∧ text.length ≤ 255 ∧
      ∃ (m : Bool) (interval : Word), mbGives mb m ∧ (interval.toNat : Int) = ms ∧ i = .startTicker m interval text) ∧
    (assemble (.tstartAt text ms off mb) = some i ↔
      (0 ≤ ms ∧ ms ≤ 2 ^ 32 - 1) ∧ (-32768 ≤ off ∧ off ≤ 32767) ∧ text.length ≤ 255 ∧
      ∃ (m : Bool) (of : BitVec 16) (interval : Word), mbGives mb m ∧ of.toInt = off ∧ (interval.toNat : Int) = ms ∧
        i = .startTickerAt m of interval text) ∧
    (assemble .tpoll = some i ↔ i = .pollTicker) ∧
    (assemble .tstop = some i ↔ i = .stopTicker) ∧
    (assemble (.rdfb row seg) = some i ↔
      (0 ≤ row ∧ row ≤ 7) ∧ (0 ≤ seg ∧ seg ≤ 255) ∧
      ∃ (r : BitVec 3) (g : BitVec 8), (r.toNat : Int) = row ∧ (g.toNat : Int) = seg ∧ i = .readFb r g) ∧
    (assemble (.rdst sel) = some i ↔
      (0 ≤ sel ∧ sel ≤ 255) ∧ ∃ e : BitVec 8, (e.toNat : Int) = sel ∧ i = .readStatus e)

/-- R70, R71: the reading of a line. Every form's line, its integers in decimal or hex, its strings with any of the escapes, with
or without a comment, is read as the command of that form with the operands' values; a line that is empty or a comment alone is
no command. That `TSTART "t", ms, off, mb=M` is a form too is the MODEL'S CHOICE (log 26): R71 writes it without `mb`. So are, by
log 18, that hex digits of a number or of `\xHH` may be of either case, that a number may have leading zeros, and that a line that
is empty or a comment alone is no command and no error: R70 leaves these open. -/
def Obligations.AssemblyLinesAreReadAsWritten : Prop :=
  (∀ (x y n : Numeral) (ps : List TextPiece) (mb : Numeral),
    readsAs "CLEAR".toList [] .clear ∧
    readsAs "SETPX".toList [.int x, .int y, .int n] (.setpx x.value y.value n.value) ∧
    readsAs "SETPX.ON".toList [.int x, .int y] (.setpxOn x.value y.value) ∧
    readsAs "SETPX.OFF".toList [.int x, .int y] (.setpxOff x.value y.value) ∧
    readsAs "GETPX".toList [.int x, .int y] (.getpx x.value y.value) ∧
    readsAs "PLEN".toList [.str ps] (.plen (textBytes ps) none) ∧
    readsAs "PLEN".toList [.str ps, .mb mb] (.plen (textBytes ps) (some mb.value)) ∧
    readsAs "PRINT".toList [.int x, .str ps] (.print x.value (textBytes ps) none) ∧
    readsAs "PRINT".toList [.int x, .str ps, .mb mb] (.print x.value (textBytes ps) (some mb.value)) ∧
    readsAs "TSTART".toList [.str ps, .int n] (.tstart (textBytes ps) n.value none none) ∧
    readsAs "TSTART".toList [.str ps, .int n, .mb mb] (.tstart (textBytes ps) n.value none (some mb.value)) ∧
    readsAs "TSTART".toList [.str ps, .int n, .int x] (.tstart (textBytes ps) n.value (some x.value) none) ∧
    readsAs "TSTART".toList [.str ps, .int n, .int x, .mb mb]
      (.tstart (textBytes ps) n.value (some x.value) (some mb.value)) ∧
    readsAs "TSTART.AT".toList [.str ps, .int n, .int x] (.tstartAt (textBytes ps) n.value x.value none) ∧
    readsAs "TSTART.AT".toList [.str ps, .int n, .int x, .mb mb]
      (.tstartAt (textBytes ps) n.value x.value (some mb.value)) ∧
    readsAs "TPOLL".toList [] .tpoll ∧
    readsAs "TSTOP".toList [] .tstop ∧
    readsAs "RDFB".toList [.int x, .int y] (.rdfb x.value y.value) ∧
    readsAs "RDST".toList [.int x] (.rdst x.value)) ∧
  assembleLine [] = .blank ∧ ∀ c : List Char, assembleLine (';' :: c) = .blank

/-- R71: the pseudo-instructions expand to the commands the rule shows. R71 shows `TSTART` with an offset without `mb`; the
clause for a written `mb` is the MODEL'S CHOICE (log 26). -/
def Obligations.PseudoInstructionsExpand : Prop :=
  ∀ (x y : Int) (text : List Byte) (ms off : Int) (mb : Option Int),
    assemble (.setpxOn x y) = assemble (.setpx x y 1) ∧
    assemble (.setpxOff x y) = assemble (.setpx x y 0) ∧
    assemble (.tstart text ms (some off) mb) = assemble (.tstartAt text ms off mb)

/-! ### Coordinate transform -/

/-- R80, R81: Transform answers OutOfRange exactly outside the display; inside, a byte offset in 0..8·N-1 and a mask with
exactly one bit set. -/
def Obligations.TransformSelectsOneBitOrNone : Prop :=
  ∀ (c : Cfg) (x y : Int),
    (transform c x y = none ↔ x < 0 ∨ x ≥ 8 * (c.n.toNat : Int) ∨ y < 0 ∨ y ≥ 8) ∧
    ∀ off mask, transform c x y = some (off, mask) →
      off < 8 * c.n.toNat ∧ ∃ b, b < 8 ∧ ∀ i, i < 8 → (mask.getLsbD i = true ↔ i = b)

/-- R83: the closed form of Transform for an in-range pixel. -/
def Obligations.TransformClosedForm : Prop :=
  ∀ (c : Cfg) (x y : Int), inDisplay c x y →
    ∃ (off : Nat) (mask : Byte), transform c x y = some (off, mask) ∧
      (off : Int) = (if c.my then 7 - y else y) * c.n.toNat + (if c.mxd then c.n.toNat - 1 - x / 8 else x / 8) ∧
      mask = (if c.mxs then (1 : Byte) <<< (x % 8).toNat else (1 : Byte) <<< (7 - x % 8).toNat)

/-- R84, R86: Transform is a bijection from the display's pixels onto the bits of FB, with the inverse of R86: no two pixels
share a bit, and every bit is reached by exactly one pixel. -/
def Obligations.TransformIsABijection : Prop :=
  ∀ c : Cfg,
    (∀ x y x' y' : Int, inDisplay c x y → inDisplay c x' y' → transform c x y = transform c x' y' → x = x' ∧ y = y') ∧
    (∀ x y : Int, inDisplay c x y → ∃ off b, off < fbSize c ∧ b < 8 ∧
      transform c x y = some (off, (1 : Byte) <<< b) ∧ inverseTransform c off b = (x, y)) ∧
    ∀ off b : Nat, off < fbSize c → b < 8 →
      inDisplay c (inverseTransform c off b).1 (inverseTransform c off b).2 ∧
      transform c (inverseTransform c off b).1 (inverseTransform c off b).2 = some (off, (1 : Byte) <<< b) ∧
      ∀ x y : Int, transform c x y = some (off, (1 : Byte) <<< b) → (x, y) = inverseTransform c off b

/-- R82, R85: each mirror acts on its own coordinate alone, so with a flag toggled the bit selected is that of the mirrored
pixel, and toggling it twice selects the same bit again. -/
def Obligations.MirrorsAreInvolutions : Prop :=
  ∀ (c : Cfg) (x y : Int), inDisplay c x y →
    (transform { c with mxs := !c.mxs } x y = transform c (8 * (x / 8) + (7 - x % 8)) y ∧
      transform { c with mxd := !c.mxd } x y = transform c (8 * (c.n.toNat - 1 - x / 8) + x % 8) y ∧
      transform { c with my := !c.my } x y = transform c x (7 - y)) ∧
    (transform { c with mxs := !c.mxs } (8 * (x / 8) + (7 - x % 8)) y = transform c x y ∧
      transform { c with mxd := !c.mxd } (8 * (c.n.toNat - 1 - x / 8) + x % 8) y = transform c x y ∧
      transform { c with my := !c.my } x (7 - y) = transform c x y)

/-- R87: the worked examples of the transform. -/
def Obligations.TransformWorkedExamples : Prop :=
  transform ⟨1, false, false, false⟩ 0 0 = some (0, 0x80) ∧
  transform ⟨1, false, false, false⟩ 7 7 = some (7, 0x01) ∧
  transform ⟨1, false, false, false⟩ 8 0 = none ∧
  transform ⟨4, false, false, false⟩ 13 2 = some (9, 0x04) ∧
  transform ⟨4, true, false, false⟩ 13 2 = some (9, 0x20) ∧
  transform ⟨4, false, true, false⟩ 13 2 = some (10, 0x04) ∧
  transform ⟨4, false, false, true⟩ 13 2 = some (21, 0x04) ∧
  transform ⟨4, true, true, true⟩ 13 2 = some (22, 0x20) ∧
  ∀ c : Cfg, transform c (-1) 0 = none ∧ transform c 0 8 = none ∧ transform c 0 (-1) = none

/-! ### Frame-buffer commands -/

/-- R91: CLEAR completes in every state: every FB byte is 0x00, nothing else changes (TK and its ACTIVE bit among it), the
response is (OK, 0). -/
def Obligations.ClearZeroesEveryByte : Prop :=
  ∀ s : State, ∃ t, exec .clear s = .next t ∧ RespondsOk s t 0 ∧ KeepsAllButFb s t ∧
    ∀ a, t.byte a = if a < 8 * s.cfg.n.toNat then 0x00 else s.byte a

/-- R90: SetPixel writes at most one bit: in range the byte selected is ORed with the mask or ANDed with its complement, which
sets exactly one bit of it to `en`; every other bit of that byte and every other byte is unchanged; out of range no byte
changes. SET_PIXEL does exactly that, completes in every state and for every operand, responds 0 and changes nothing else
(R92). -/
def Obligations.SetPixelWritesAtMostOneBit : Prop :=
  (∀ (c : Cfg) (k : Nat) (m : Memory) (x y : Int) (en : Bool),
    (transform c x y = none → ∀ a, (setPixel c k m x y en).byte k a = m.byte k a) ∧
    ∀ off mask, transform c x y = some (off, mask) →
      (setPixel c k m x y en).byte k off = (if en then m.byte k off ||| mask else m.byte k off &&& ~~~mask) ∧
      (∃ b, b < 8 ∧ mask = (1 : Byte) <<< b ∧ ∀ i, i < 8 →
        ((setPixel c k m x y en).byte k off).getLsbD i = if i = b then en else (m.byte k off).getLsbD i) ∧
      ∀ a, a ≠ off → (setPixel c k m x y en).byte k a = m.byte k a) ∧
  ∀ (en : Bool) (x : BitVec 16) (y : BitVec 8) (s : State),
    ∃ t, exec (.setPixel en x y) s = .next t ∧ RespondsOk s t 0 ∧ KeepsAllButFb s t ∧
      (transform s.cfg x.toInt y.toInt = none → ∀ a, t.byte a = s.byte a) ∧
      ∀ off mask, transform s.cfg x.toInt y.toInt = some (off, mask) →
        t.byte off = (if en then s.byte off ||| mask else s.byte off &&& ~~~mask) ∧
        (∃ b, b < 8 ∧ mask = (1 : Byte) <<< b ∧ ∀ i, i < 8 →
          (t.byte off).getLsbD i = if i = b then en else (s.byte off).getLsbD i) ∧
        ∀ a, a ≠ off → t.byte a = s.byte a

/-- R93: GET_PIXEL completes in every state and for every operand: it responds the bit of FB that Transform selects, 0 out of
range, and writes nothing. -/
def Obligations.GetPixelRespondsTheSelectedBit : Prop :=
  ∀ (x : BitVec 16) (y : BitVec 8) (s : State),
    (transform s.cfg x.toInt y.toInt = none → exec (.getPixel x y) s = .next (s.respond 0)) ∧
    ∀ off mask, transform s.cfg x.toInt y.toInt = some (off, mask) →
      exec (.getPixel x y) s = .next (s.respond (if s.byte off &&& mask ≠ 0 then 1 else 0))

/-- R94: the laws of the pixel unit, command after command: a set pixel reads 1, a cleared one 0, writing another pixel leaves
it alone, and writing out of range changes no byte. -/
def Obligations.PixelUnitLaws : Prop :=
  ∀ (x : BitVec 16) (y : BitVec 8) (s : State), inDisplay s.cfg x.toInt y.toInt →
    (∀ en : Bool, ∃ t, exec (.setPixel en x y) s = .next t ∧
      exec (.getPixel x y) t = .next (t.respond (if en then 1 else 0))) ∧
    (∀ (en : Bool) (x' : BitVec 16) (y' : BitVec 8), inDisplay s.cfg x'.toInt y'.toInt → (x', y') ≠ (x, y) →
      ∃ t v, exec (.setPixel en x' y') s = .next t ∧ exec (.getPixel x y) s = .next (s.respond v) ∧
        exec (.getPixel x y) t = .next (t.respond v)) ∧
    ∀ (en : Bool) (x' : BitVec 16) (y' : BitVec 8), ¬ inDisplay s.cfg x'.toInt y'.toInt →
      ∃ t, exec (.setPixel en x' y') s = .next t ∧ ∀ a, t.byte a = s.byte a

/-- R95: READ_FB completes in every state: with SEG below N it responds the physical byte FB[row·N + seg], which exists, with
SEG at or above N it is rejected with RANGE; it writes nothing. -/
def Obligations.ReadFbRespondsThePhysicalByte : Prop :=
  ∀ (row : BitVec 3) (seg : BitVec 8) (s : State),
    (seg.toNat < s.cfg.n.toNat →
      row.toNat * s.cfg.n.toNat + seg.toNat < 8 * s.cfg.n.toNat ∧
      ∃ v : Word, exec (.readFb row seg) s = .next (s.respond v) ∧
        v.toNat = (s.byte (row.toNat * s.cfg.n.toNat + seg.toNat)).toNat) ∧
    (s.cfg.n.toNat ≤ seg.toNat → exec (.readFb row seg) s = .next (s.reject .range))

/-- R96: the 8·N READ_FB packets of a flush, row 0 first and the segments in order, respond the bytes of FB in order, whatever
their times, and change nothing. -/
def Obligations.FlushReadsTheFrameInOrder : Prop :=
  ∀ (s : State) (nows : List Word), nows.length = 8 * s.cfg.n.toNat →
    (flushCommands s.cfg).length = 8 * s.cfg.n.toNat ∧
    ∃ t, runCommands (nows.zip (flushCommands s.cfg)) s = .next t ∧
      t.responses = s.responses ++
        (List.range (8 * s.cfg.n.toNat)).map (fun a => ⟨.ok, (s.byte a).setWidth 32⟩) ∧
      t.params = s.params ∧ t.cfg = s.cfg ∧ t.fb = s.fb ∧ t.tk = s.tk

/-- R48: the reads have no side effect; CLEAR, SET_PIXEL, PRINT_TEXT, STOP_TICKER and START_TICKER(.AT) with the same NOW leave
the same state when issued twice as when issued once; a poll that does not advance changes nothing. -/
def Obligations.ReadsPureAndWritesIdempotent : Prop :=
  (∀ (i : Instr) (s t : State), exec i s = .next t →
    ((∃ x y, i = .getPixel x y) ∨ (∃ row seg, i = .readFb row seg) ∨ (∃ mb text, i = .pixelLength mb text) ∨
      (∃ sel, i = .readStatus sel) ∨ (i = .pollTicker ∧ pollAdvances s = false)) →
    ∃ r, t = s.answer r) ∧
  ∀ (i : Instr) (s t : State), exec i s = .next t →
    (i = .clear ∨ (∃ en x y, i = .setPixel en x y) ∨ (∃ mb x text, i = .printText mb x text) ∨ i = .stopTicker ∨
      (∃ mb iv text, i = .startTicker mb iv text) ∨ (∃ mb off iv text, i = .startTickerAt mb off iv text)) →
    ∃ u, exec i t = .next u ∧ u.tk = t.tk ∧ u.cfg = t.cfg ∧ u.params = t.params ∧ ∀ a, u.byte a = t.byte a

/-! ### Decoder and Measure -/

/-- R110: the decoder's worked examples, with the default parameters and with DROP_PAIR. -/
def Obligations.DecoderWorkedExamples : Prop :=
  let p := Params.default
  let dropping : Params := { Params.default with mbFallback := .dropPair }
  decodeText p true [0x41] = [33] ∧
  decodeText p true [0x41, 0x42] = [33, 34] ∧
  decodeText p true [0xC3, 0xA4] = [98] ∧
  decodeText p false [0xC3, 0xA4] = [] ∧
  decodeText p true [0x41, 0xC3, 0xA4] = [33, 98] ∧
  decodeText p false [0xC3, 0x84] = [100] ∧
  decodeText p true [0xC3, 0x41] = [33] ∧ decodeText dropping true [0xC3, 0x41] = [] ∧
  decodeText p true [0xC3] = [] ∧
  decodeText p true [0xC2, 0xB0, 0x20] = [102, 0] ∧
  decodeText p true [0x00, 0x1F, 0x87, 0xFF] = [] ∧
  decodeText p true [0x7F, 0x86] = [95, 102] ∧
  decodeText p true [] = []

/-- R105, R106, R108: one loop step of the decoder, for every MB_PAIRS of distinct pairs (R104): a pair of MB_PAIRS gives its
symbol's glyph and both bytes are used; under DROP_PAIR a byte of LEADS with a byte after it that makes no pair drops both;
otherwise one byte is used, and gives glyph v - 32 for v in 32..134 and nothing else; the end of the text ends the loop. -/
def Obligations.DecoderLoopStep : Prop :=
  ∀ (p : Params) (mb : Bool), (∀ a b : Symbol, p.mbPairs.get a = p.mbPairs.get b → a = b) →
    decodeText p mb [] = [] ∧
    ∀ (v : Byte) (rest : List Byte),
      (∀ c tail y, rest = c :: tail → mb = true → p.mbPairs.get y = (v, c) →
        decodeText p mb (v :: rest) = p.accentIndex.get y :: decodeText p mb tail) ∧
      (∀ c tail, rest = c :: tail → mb = true → (∀ y, p.mbPairs.get y ≠ (v, c)) → p.mbFallback = .dropPair →
        (∃ y, (p.mbPairs.get y).1 = v) → decodeText p mb (v :: rest) = decodeText p mb tail) ∧
      ((mb = false ∨ rest = [] ∨ ∃ c tail, rest = c :: tail ∧ (∀ y, p.mbPairs.get y ≠ (v, c)) ∧
          (p.mbFallback = .redecode ∨ ∀ y, (p.mbPairs.get y).1 ≠ v)) →
        (∀ g : GlyphIndex, 32 ≤ v.toNat → v.toNat ≤ 134 → g.val = v.toNat - 32 →
          decodeText p mb (v :: rest) = g :: decodeText p mb rest) ∧
        (v.toNat < 32 ∨ 134 < v.toNat → decodeText p mb (v :: rest) = decodeText p mb rest))

/-- R109: with mb = 0 every byte is decoded alone, 32..134 to glyph v - 32 and the others to nothing; under the default parameters a two-byte "ä" then gives no glyph and a
two-byte "Ä" glyph 100. -/
def Obligations.WithoutMbEveryByteAlone : Prop :=
  (∀ (p : Params) (text : List Byte), decodeText p false text = text.flatMap fun b => decodeText p false [b]) ∧
  (∀ (p : Params) (v : Byte) (g : GlyphIndex), 32 ≤ v.toNat → v.toNat ≤ 134 → g.val = v.toNat - 32 →
    decodeText p false [v] = [g]) ∧
  (∀ (p : Params) (v : Byte), v.toNat < 32 ∨ 134 < v.toNat → decodeText p false [v] = []) ∧
  decodeText Params.default false [0xC3, 0xA4] = [] ∧ decodeText Params.default false [0xC3, 0x84] = [100]

/-- R107: the decoder gives no more glyphs than bytes, at most 255 for a text that fits, and none for none. -/
def Obligations.DecodedTextIsNoLonger : Prop :=
  ∀ (p : Params) (mb : Bool) (text : List Byte),
    (decodeText p mb text).length ≤ text.length ∧
    (textFits text = true → (decodeText p mb text).length ≤ 255) ∧
    decodeText p mb [] = []

/-- R121: the laws of Measure. -/
def Obligations.MeasureLaws : Prop :=
  ∀ (p : Params) (a b : List GlyphIndex),
    measureText p [] = 0 ∧
    measureText p (a ++ b) = measureText p a + measureText p b ∧
    measureText p a = (a.map (widthOf p)).sum + a.length ∧
    (p.legal = true → 2 * a.length ≤ measureText p a)

/-! ### Rasterizer commands -/

/-- R120, R124: PIXEL_LENGTH completes in every state: it responds the sum of WID(g) + 1 over the decoded text, which is at
most 2295 for a text that fits under legal parameters, and writes nothing. -/
def Obligations.PixelLengthRespondsMeasure : Prop :=
  ∀ (mb : Bool) (text : List Byte) (s : State), ∃ v : Word,
    exec (.pixelLength mb text) s = .next (s.respond v) ∧
    (textFits text = true → s.params.legal = true →
      v.toNat = ((decodeText s.params mb text).map fun g => widthOf s.params g + 1).sum ∧ v.toNat ≤ 2295)

/-- R122, R125: PRINT_TEXT completes in every state: it responds the sum of the widths of the decoded text, wherever it starts;
TK and everything but FB is unchanged; so is every byte that is no byte of FB. -/
def Obligations.PrintTextRespondsTheWidth : Prop :=
  ∀ (mb : Bool) (x : BitVec 16) (text : List Byte) (s : State), ∃ t v,
    exec (.printText mb x text) s = .next t ∧ RespondsOk s t v ∧ KeepsAllButFb s t ∧
    (∀ a, 8 * s.cfg.n.toNat ≤ a → t.byte a = s.byte a) ∧
    (textFits text = true → s.params.legal = true →
      v.toNat = ((decodeText s.params mb text).map (widthOf s.params)).sum)

/-- R123: the pixels after PRINT_TEXT, under either DRAW_COLUMNS: each pixel of the display is what the text writes there last,
or what it was where the text writes nothing. -/
def Obligations.PrintTextPixelsAreTheLastWrites : Prop :=
  ∀ (mb : Bool) (x0 : BitVec 16) (text : List Byte) (s : State), ∃ t,
    exec (.printText mb x0 text) s = .next t ∧
    ∀ (x : Int) (r : Fin 8), inDisplay s.cfg x (r.val : Int) →
      t.pixel x (r.val : Int) =
        (textPixel s.params (decodeText s.params mb text) x0.toInt x r).getD (s.pixel x (r.val : Int))

/-- R126: the Draw laws under DRAW_COLUMNS = WIDTH, for PRINT_TEXT: return value, footprint, overwrite, clipping, and the
translation of a single glyph on one segment without flags. -/
def Obligations.DrawLawsUnderWidth : Prop :=
  ∀ (mb : Bool) (x0 : BitVec 16) (text : List Byte) (s : State), s.params.drawColumns = .width → s.params.legal = true →
    let p := s.params
    let gs := decodeText p mb text
    let total : Int := ((gs.map (widthOf p)).sum : Nat)
    let w : Int := 8 * (s.cfg.n.toNat : Int)
    ∃ t, exec (.printText mb x0 text) s = .next t ∧ RespondsOk s t (BitVec.ofInt 32 total) ∧
      (∀ x y : Int, inDisplay s.cfg x y → ¬ (x0.toInt ≤ x ∧ x < x0.toInt + total) → t.pixel x y = s.pixel x y) ∧
      (∀ (pre post : List GlyphIndex) (g : GlyphIndex) (col : Nat) (r : Fin 8), gs = pre ++ g :: post →
        col < widthOf p g →
        let x : Int := x0.toInt + ((pre.map (widthOf p)).sum : Nat) + col
        0 ≤ x → x < w → t.pixel x (r.val : Int) = (glyphAt p g).rows[r].getLsbD (7 - col)) ∧
      ((x0.toInt ≥ w ∨ x0.toInt + total ≤ 0 ∨ gs = []) → ∀ a, t.byte a = s.byte a) ∧
      (gs = [] → total = 0) ∧
      ∀ g : GlyphIndex, gs = [g] → s.cfg = ⟨1, false, false, false⟩ → ∀ r : Fin 8,
        let row := (glyphAt p g).rows[r]
        let cols := leftColumns (widthOf p g)
        (∀ k : Nat, k ≤ 7 → x0.toInt = k →
          t.byte r.val = ((row &&& cols) >>> k) ||| (s.byte r.val &&& ~~~(cols >>> k))) ∧
        (∀ k : Nat, 0 < k → k ≤ 7 → x0.toInt = -(k : Int) →
          t.byte r.val = ((row &&& cols) <<< k) ||| (s.byte r.val &&& ~~~(cols <<< k)))

/-- R127: the worked case of the overwrite corner, under WIDTH and under FULL8. -/
def Obligations.OverwriteCornerWorkedCase : Prop :=
  ∀ dc : DrawColumns,
    let s : State := { State.reset with
      params := { Params.default with drawColumns := dc }
      fb := [(0, 0xFF), (1, 0), (2, 0), (3, 0), (4, 0), (5, 0), (6, 0), (7, 0)] }
    ∃ t, exec (.printText true 0 [0x41]) s = .next t ∧ RespondsOk s t 6 ∧
      t.byte 0 = (match dc with | .width => 0x23 | .full8 => 0x20) ∧
      (List.range 7).map (fun r => t.byte (r + 1)) = [0x50, 0x88, 0x88, 0xF8, 0x88, 0x88, 0x00]

/-! ### Ticker commands -/

/-- R132 with d = 0: START_TICKER completes, writes every TK register, the offset being 8·N, and changes nothing else. -/
def Obligations.StartTickerEntersFromTheRight : Prop :=
  ∀ (mb : Bool) (interval : Word) (text : List Byte) (s : State), textFits text = true → s.params.legal = true →
    let gs := decodeText s.params mb text
    ∃ t, exec (.startTicker mb interval text) s = .next t ∧ RespondsOk s t 0 ∧ KeepsAllButTk s t ∧
      t.tk.active = true ∧ t.tk.gcount.toNat = gs.length ∧ t.tk.glyph = gs ∧
      t.tk.len.toNat = (gs.map fun g => widthOf s.params g + 1).sum ∧
      t.tk.offset.toInt = 8 * (s.cfg.n.toNat : Int) ∧ t.tk.interval = interval ∧ t.tk.last = s.now

/-- R132 with d = 1: START_TICKER.AT completes, writes every TK register, the offset being the signed X field, and changes
nothing else. -/
def Obligations.StartTickerAtTheGivenOffset : Prop :=
  ∀ (mb : Bool) (off : BitVec 16) (interval : Word) (text : List Byte) (s : State), textFits text = true →
    s.params.legal = true →
    let gs := decodeText s.params mb text
    ∃ t, exec (.startTickerAt mb off interval text) s = .next t ∧ RespondsOk s t 0 ∧ KeepsAllButTk s t ∧
      t.tk.active = true ∧ t.tk.gcount.toNat = gs.length ∧ t.tk.glyph = gs ∧
      t.tk.len.toNat = (gs.map fun g => widthOf s.params g + 1).sum ∧
      t.tk.offset.toInt = off.toInt ∧ t.tk.interval = interval ∧ t.tk.last = s.now

/-- R133: a START replaces a running session whole: the registers after it do not depend on those before it. -/
def Obligations.StartForgetsTheOldSession : Prop :=
  ∀ (mb : Bool) (off : BitVec 16) (interval : Word) (text : List Byte) (s : State) (old : Ticker),
    (∃ t t', exec (.startTicker mb interval text) s = .next t ∧
      exec (.startTicker mb interval text) (s.setTk old) = .next t' ∧ t.tk = t'.tk) ∧
    ∃ t t', exec (.startTickerAt mb off interval text) s = .next t ∧
      exec (.startTickerAt mb off interval text) (s.setTk old) = .next t' ∧ t.tk = t'.tk

/-- R130, R131, R134: a poll of an INACTIVE ticker, or one whose elapsed time is below the interval, responds 0 and changes no
state, not even TK.LAST. -/
def Obligations.PollThatWaitsChangesNothing : Prop :=
  ∀ s : State, s.tk.active = false ∨ elapsedMs s < s.tk.interval.toNat →
    exec .pollTicker s = .next (s.respond 0)

/-- R134, R135, R136: a poll of an ACTIVE ticker whose elapsed time is at least the interval completes with response 1: FB shows
the message at the offset held before, on a cleared display; the offset moves one column left, or to 8·N when that is below
-TK.LEN; TK.LAST is the sampled NOW; nothing else changes. -/
def Obligations.PollThatIsDueAdvances : Prop :=
  ∀ s : State, s.Inv → s.tk.active = true → s.tk.interval.toNat ≤ elapsedMs s →
    ∃ t, exec .pollTicker s = .next t ∧ RespondsOk s t 1 ∧ KeepsAllButFbTk s t ∧
      (∀ (x : Int) (r : Fin 8), inDisplay s.cfg x (r.val : Int) →
        t.pixel x (r.val : Int) = (textPixel s.params (message s.tk) s.tk.offset.toInt x r).getD false) ∧
      (∀ a, 8 * s.cfg.n.toNat ≤ a → t.byte a = s.byte a) ∧
      t.tk.offset.toInt =
        (if s.tk.offset.toInt - 1 < -(s.tk.len.toNat : Int) then 8 * (s.cfg.n.toNat : Int)
          else s.tk.offset.toInt - 1) ∧
      t.tk.last = s.now ∧ t.tk.active = true ∧ t.tk.len = s.tk.len ∧ t.tk.interval = s.tk.interval ∧
      t.tk.gcount = s.tk.gcount ∧ t.tk.glyph = s.tk.glyph

/-- R137, and the source's property S8: STOP_TICKER completes, clears TK.ACTIVE and nothing else, and any number of polls at any
times after it respond 0 and change neither FB nor TK. -/
def Obligations.StoppedTickerNeverMoves : Prop :=
  ∀ (s : State) (nows : List Word), ∃ t,
    exec .stopTicker s = .next t ∧ RespondsOk s t 0 ∧ KeepsAllButTk s t ∧ t.tk = { s.tk with active := false } ∧
    ∃ u, runPolls nows t = .next u ∧ u.tk = t.tk ∧ u.fb = s.fb ∧ (∀ a, u.byte a = s.byte a) ∧
      u.responses = t.responses ++ List.replicate nows.length ⟨.ok, 0⟩

/-- R138, R23: READ_STATUS completes in every state and writes nothing: selectors 0 to 5 respond the TK registers, 6 responds
CFG with N in bits 7..0, MXS, MXD and MY in bits 8, 9 and 10 and 0 above, every other selector is rejected with RANGE. -/
def Obligations.ReadStatusRespondsTheRegisters : Prop :=
  ∀ s : State,
    exec (.readStatus 0) s = .next (s.respond (if s.tk.active then 1 else 0)) ∧
    exec (.readStatus 1) s = .next (s.respond s.tk.offset) ∧
    exec (.readStatus 2) s = .next (s.respond s.tk.len) ∧
    exec (.readStatus 3) s = .next (s.respond s.tk.interval) ∧
    exec (.readStatus 4) s = .next (s.respond s.tk.last) ∧
    (∃ v : Word, exec (.readStatus 5) s = .next (s.respond v) ∧ v.toNat = s.tk.gcount.toNat) ∧
    (∃ v : Word, exec (.readStatus 6) s = .next (s.respond v) ∧ v.extractLsb' 0 8 = s.cfg.n ∧
      v.getLsbD 8 = s.cfg.mxs ∧ v.getLsbD 9 = s.cfg.mxd ∧ v.getLsbD 10 = s.cfg.my ∧
      ∀ i, 11 ≤ i → v.getLsbD i = false) ∧
    ∀ sel : BitVec 8, 6 < sel.toNat → exec (.readStatus sel) s = .next (s.reject .range)

/-- R139: the offsets of a run of advancing polls: the k-th advance draws at the k-th scroll offset, and the scroll offsets run
down to -L, restart at W, and from the first frame at W repeat every W + L + 1 advances. -/
def Obligations.ScrollOffsetsAndPeriod : Prop :=
  (∀ (s u : State) (nows : List Word), s.Inv → s.tk.active = true → runPolls nows s = .next u →
    u.responses = s.responses ++ List.replicate nows.length ⟨.ok, 1⟩ →
    let o := scrollOffset (8 * s.cfg.n.toNat) s.tk.len.toNat s.tk.offset.toInt
    u.tk.offset.toInt = o nows.length ∧
    ∀ k, nows.length = k + 1 → ∀ (x : Int) (r : Fin 8), inDisplay s.cfg x (r.val : Int) →
      u.pixel x (r.val : Int) = (textPixel s.params (message s.tk) (o k) x r).getD false) ∧
  ∀ (w l : Nat) (o0 : Int),
    (o0 ≥ -(l : Int) → (∀ k : Nat, (k : Int) ≤ o0 + l → scrollOffset w l o0 k = o0 - k) ∧
      scrollOffset w l o0 ((o0 + l).toNat + 1) = w) ∧
    (o0 < -(l : Int) → scrollOffset w l o0 0 = o0 ∧ scrollOffset w l o0 1 = w) ∧
    ∀ j i : Nat, scrollOffset w l o0 j = w →
      scrollOffset w l o0 (j + (w + l + 1) + i) = scrollOffset w l o0 (j + i)

/-- R140: under DRAW_COLUMNS = WIDTH an advance at an offset of W or more, or of -(L - n) or less, leaves a blank frame. -/
def Obligations.OffscreenFramesAreBlank : Prop :=
  ∀ s : State, s.Inv → s.params.drawColumns = .width → s.tk.active = true → s.tk.interval.toNat ≤ elapsedMs s →
    (s.tk.offset.toInt ≥ 8 * (s.cfg.n.toNat : Int) ∨
      s.tk.offset.toInt ≤ -((s.tk.len.toNat : Int) - s.tk.gcount.toNat)) →
    ∃ t, exec .pollTicker s = .next t ∧ ∀ x y : Int, t.pixel x y = false

/-- R177: what direct writes did to FB while the ticker is ACTIVE is gone after the next advance: the frame it leaves does not
depend on what FB held. -/
def Obligations.AdvanceForgetsDirectWrites : Prop :=
  ∀ (s : State) (m : Memory), s.tk.active = true → s.tk.interval.toNat ≤ elapsedMs s →
    ∃ t u, exec .pollTicker s = .next t ∧ exec .pollTicker (s.setFb m) = .next u ∧ t.tk = u.tk ∧
      ∀ a, a < 8 * s.cfg.n.toNat → t.byte a = u.byte a

/-- R178: when NOW has gone back d ms behind TK.LAST (0 < d < 2^32), Elapsed is 2^32 - d, and a poll of an ACTIVE ticker
advances exactly when the interval is at most that. -/
def Obligations.TimeGoingBackwardsWrapsElapsed : Prop :=
  ∀ (s : State) (d : Word), d ≠ 0 → s.now = s.tk.last - d → s.tk.active = true →
    elapsedMs s = 2 ^ 32 - d.toNat ∧
    ∃ t, exec .pollTicker s = .next t ∧
      ((s.tk.interval.toNat ≤ 2 ^ 32 - d.toNat ∧ RespondsOk s t 1) ∨
        (2 ^ 32 - d.toNat < s.tk.interval.toNat ∧ RespondsOk s t 0))

/-! ### The whole machine -/

/-- The invariant holds of the block right after reset. (It rests on the model's own choices of State.reset, logs 1 to 6; the
values of the free draws do not matter.) -/
def Obligations.InvariantHoldsAtReset : Prop := State.reset.Inv

/-- R23, R25, R30, R102, R17: every step keeps the invariant: parameters legal, N in 1..255, FB in canonical form and within
8·N bytes, TK.GLYPH of TK.GCOUNT entries, and of an ACTIVE session the length and the range of the offset. -/
def Obligations.EveryStepKeepsTheInvariant : Prop :=
  ∀ s t : State, s.Inv → step s = .next t → t.Inv

/-- R7, R61, R163: every whole packet, whatever its bits, gets exactly one response, and the VALUE of an error is 0. -/
def Obligations.EveryPacketGetsOneResponse : Prop :=
  ∀ (s s' : State) (p : Packet), fetch s = .packet p s' →
    ∃ t r, step s = .next t ∧ t.responses = s.responses ++ [r] ∧ (r.status ≠ .ok → r.value = 0)

/-- R23, R27, R157, R173, R181: no step changes the glyph ROM or another parameter, and only a reset changes CFG. -/
def Obligations.OnlyAResetChangesCfg : Prop :=
  ∀ s t : State, step s = .next t → t.params = s.params ∧
    (t.cfg ≠ s.cfg → ∃ pins s', fetch s = .reset pins s' ∧ t.cfg = pins)

/-- R26: of the commands, only CLEAR, SET_PIXEL, PRINT_TEXT and an advancing POLL_TICKER change a byte of FB. -/
def Obligations.OnlyTheWritersChangeFb : Prop :=
  ∀ (i : Instr) (s t : State) (a : Nat), exec i s = .next t → t.byte a ≠ s.byte a →
    i = .clear ∨ (∃ en x y, i = .setPixel en x y) ∨ (∃ mb x text, i = .printText mb x text) ∨
      (i = .pollTicker ∧ s.tk.active = true ∧ s.tk.interval.toNat ≤ elapsedMs s)

/-- R29, R30, R130: only START_TICKER(.AT), STOP_TICKER and an advancing POLL_TICKER change TK; only START_TICKER(.AT) makes an
INACTIVE ticker ACTIVE, only STOP_TICKER the reverse, and only START_TICKER(.AT) changes TK.GLYPH. -/
def Obligations.OnlyTickerCommandsChangeTk : Prop :=
  ∀ (i : Instr) (s t : State), exec i s = .next t →
    (t.tk ≠ s.tk → (∃ mb iv text, i = .startTicker mb iv text) ∨ (∃ mb off iv text, i = .startTickerAt mb off iv text) ∨
      i = .stopTicker ∨ (i = .pollTicker ∧ s.tk.active = true ∧ s.tk.interval.toNat ≤ elapsedMs s)) ∧
    (s.tk.active = false → t.tk.active = true →
      (∃ mb iv text, i = .startTicker mb iv text) ∨ ∃ mb off iv text, i = .startTickerAt mb off iv text) ∧
    (s.tk.active = true → t.tk.active = false → i = .stopTicker) ∧
    (t.tk.glyph ≠ s.tk.glyph →
      (∃ mb iv text, i = .startTicker mb iv text) ∨ ∃ mb off iv text, i = .startTickerAt mb off iv text)

/-- R6, R163: a step answers no next state only for a reset whose cfg_n is 0, and then by the refusal of that name. -/
def Obligations.OnlyAnInvalidResetIsRefused : Prop :=
  ∀ s : State, (∃ t, step s = .next t) ∨
    (step s = .refused .invalidConfiguration ∧ ∃ pins s', fetch s = .reset pins s' ∧ pins.n = 0)

/-- R170, R172, R181: a reset with a legal cfg_n latches the four inputs into CFG, makes the ticker INACTIVE, keeps the glyph
ROM and the parameters, and forgets every written byte of FB; one with cfg_n = 0 is refused. -/
def Obligations.ResetLatchesTheInputs : Prop :=
  ∀ (s s' : State) (pins : Cfg), fetch s = .reset pins s' →
    (pins.n ≠ 0 → ∃ t, step s = .next t ∧ t.cfg.n = pins.n ∧ t.cfg.mxs = pins.mxs ∧ t.cfg.mxd = pins.mxd ∧
      t.cfg.my = pins.my ∧ t.tk.active = false ∧ t.params = s.params ∧ (∀ a, t.fb.get? a = none)) ∧
    (pins.n = 0 → step s = .refused .invalidConfiguration)

/-- A block is built from a configuration and parameters exactly when N is not 0, every width is in 1..8 and glyphs "A" and "ä"
are as the source gives them (R6, R102), and the eight pairs are distinct and ACCENT_INDEX is a bijection onto 95..102. That
parameters which break the last two conditions, those of R104, are refused is the MODEL'S CHOICE (log 13): R6 does not name
them. -/
def Obligations.BuildRefusesInvalidParameters : Prop :=
  ∀ (p : Params) (pins : Cfg),
    (∃ s, State.build p pins = .ok s) ↔
      pins.n ≠ 0 ∧ (∀ g : GlyphIndex, 1 ≤ p.rom[g].width ∧ p.rom[g].width ≤ 8) ∧
      p.rom[(33 : GlyphIndex)] = ⟨#v[0x20, 0x50, 0x88, 0x88, 0xF8, 0x88, 0x88, 0x00], 6⟩ ∧
      p.rom[p.accentIndex.smallA] = ⟨#v[0x50, 0x00, 0xF0, 0x08, 0x78, 0x98, 0x68, 0x00], 6⟩ ∧
      (∀ a b : Symbol, p.mbPairs.get a = p.mbPairs.get b → a = b) ∧
      (∀ g : GlyphIndex, 95 ≤ g.val ↔ ∃ y : Symbol, p.accentIndex.get y = g) ∧
      ∀ a b : Symbol, p.accentIndex.get a = p.accentIndex.get b → a = b

/-- R174: a built block is the block right after reset with its own parameters and configuration inputs: CFG as the inputs, the
ROM and the other parameters as given, the ticker INACTIVE, no byte of FB written, nothing answered; and it meets the
invariant. Where nothing is built, the answer is the refusal of that name (log 13: the model's form). -/
def Obligations.BuiltBlockIsResetAndMeetsTheInvariant : Prop :=
  ∀ (p : Params) (pins : Cfg),
    (∀ s, State.build p pins = .ok s →
      s.params = p ∧ s.cfg = pins ∧ s.tk.active = false ∧ (∀ a, s.fb.get? a = none) ∧ s.responses = [] ∧ s.Inv) ∧
    ∀ r, State.build p pins = .error r → r = .invalidConfiguration

/-- A step runs the decoded command: when the bytes received decode to a command, the step is that command's `exec` on the state
with its bytes used up; when no whole packet has been received and the host's next input is a packet that decodes, the step is
that command's `exec` with the input taken and its NOW sampled. Two things here are the MODEL'S CHOICE: that a packet of the
link runs with the NOW of the delivery last taken (log 9), and that a record runs while the bytes of an incomplete packet wait
(log 11). -/
def Obligations.StepRunsTheDecodedCommand : Prop :=
  (∀ (s : State) (i : Instr) (rest : List Byte), decodeBytes s.rx = .command i rest →
    i.wellFormed = true ∧ step s = exec i { s with rx := rest }) ∧
  ∀ (s : State) (now : Word) (p : Packet) (t : List Input) (i : Instr), frame s.rx = none →
    s.pending = .record now p :: t → decodePacket p = .ok i →
    i.wellFormed = true ∧ step s = exec i { s with pending := t, now := now }

/-- The block with nothing to do waits, unchanged, and bytes of the link are taken with their NOW and change nothing else
(R163, R174; logs 9, 10 and 11). -/
def Obligations.BlockWaitsForAWholePacket : Prop :=
  (∀ s : State, frame s.rx = none → s.pending = [] → step s = .next s) ∧
  ∀ (s : State) (now : Word) (bytes : List Byte) (t : List Input), frame s.rx = none →
    s.pending = .link now bytes :: t →
    step s = .next { s with pending := t, now := now, rx := s.rx ++ bytes }

/-- R47, R50, R182: packets the host has queued run in order, one a step, each whole and with its own NOW: as many steps as
packets give what the commands give one after the other. -/
def Obligations.QueuedPacketsRunInOrder : Prop :=
  ∀ (s : State) (commands : List (Word × Instr)), (∀ c ∈ commands, c.2.wellFormed = true) → s.rx = [] →
    s.pending = commands.map (fun c => .record c.1 (encode c.2)) →
    ∃ t, Sys2Proof.core.run commands.length s = .next t ∧ runCommands commands { s with pending := [] } = .next t
end

