-- ==== Sys2Proof/Laws/Asm.lean ====
section
/-! SUPPORT. The assembler's reading of one written number, string, operand and comment, whatever follows it. -/

namespace Sys2Proof.Machine

/-- What follows a number or an operand in a line: its end, a comma or a blank. -/
def EndsOperand (rest : List Char) : Prop := rest = [] ∨ ∃ c t, rest = c :: t ∧ (c = ',' ∨ c = ' ')

theorem decDigit_digitChar (u : Bool) (d : Fin 10) : decDigit (digitChar u d.val) = some d.val := by
  cases u <;> revert d <;> decide

theorem hexDigit_digitChar (d : Bool × Fin 16) : hexDigit (digitChar d.1 d.2.val) = some d.2.val := by
  obtain ⟨u, d⟩ := d
  cases u <;> revert d <;> decide

/-- The longest run of digits is read as the number it spells (R70). -/
theorem lexDigits_map {α : Type} {digit : Char → Option Nat} {f : α → Char} {v : α → Nat}
    (hf : ∀ a, digit (f a) = some (v a)) (base : Nat) {rest : List Char}
    (hr : rest = [] ∨ ∃ c t, rest = c :: t ∧ digit c = none) (ds : List α) (acc : Nat) :
    lexDigits digit base true acc (ds.map f ++ rest) = some (digitsValue base acc (ds.map v), rest) := by
  induction ds generalizing acc with
  | nil =>
    obtain rfl | ⟨c, t, rfl, hc⟩ := hr
    · rfl
    · simp [lexDigits, hc, digitsValue]
  | cons d ds ih => simp [lexDigits, hf, digitsValue, ih]

theorem lexDigits_cons {α : Type} {digit : Char → Option Nat} {f : α → Char} {v : α → Nat}
    (hf : ∀ a, digit (f a) = some (v a)) (base : Nat) {rest : List Char}
    (hr : rest = [] ∨ ∃ c t, rest = c :: t ∧ digit c = none) (d : α) (ds : List α) :
    lexDigits digit base false 0 ((d :: ds).map f ++ rest) = some (digitsValue base 0 ((d :: ds).map v), rest) := by
  simp [lexDigits, hf, digitsValue, lexDigits_map hf base hr]

theorem EndsOperand.dec {rest : List Char} (h : EndsOperand rest) :
    rest = [] ∨ ∃ c t, rest = c :: t ∧ decDigit c = none := by
  obtain rfl | ⟨c, t, rfl, rfl | rfl⟩ := h
  · exact .inl rfl
  · exact .inr ⟨_, _, rfl, by decide⟩
  · exact .inr ⟨_, _, rfl, by decide⟩

theorem EndsOperand.hex {rest : List Char} (h : EndsOperand rest) :
    rest = [] ∨ ∃ c t, rest = c :: t ∧ hexDigit c = none := by
  obtain rfl | ⟨c, t, rfl, rfl | rfl⟩ := h
  · exact .inl rfl
  · exact .inr ⟨_, _, rfl, by decide⟩
  · exact .inr ⟨_, _, rfl, by decide⟩

/-- A string is read as its bytes, up to its closing quote (R70). -/
theorem lexString_pieces (ps : List TextPiece) (rest : List Char) :
    lexString (ps.flatMap TextPiece.chars ++ Char.ofNat 34 :: rest) = some (textBytes ps, rest) := by
  induction ps with
  | nil => unfold lexString; rfl
  | cons p ps ih =>
    cases p with
    | raw h l =>
      show lexString (Char.ofNat 92 :: 'x' :: digitChar h.1 h.2.val :: digitChar l.1 l.2.val ::
        (ps.flatMap TextPiece.chars ++ Char.ofNat 34 :: rest)) = _
      unfold lexString
      rw [if_neg (by decide), if_pos (by decide)]
      simp only
      rw [if_neg (by decide), if_pos (by decide)]
      simp only [hexDigit_digitChar, ih]
      rfl
    | quote =>
      show lexString (Char.ofNat 92 :: Char.ofNat 34 :: (ps.flatMap TextPiece.chars ++ Char.ofNat 34 :: rest)) = _
      unfold lexString
      rw [if_neg (by decide), if_pos (by decide)]
      simp only
      rw [if_pos (by decide), ih]
      rfl
    | backslash =>
      show lexString (Char.ofNat 92 :: Char.ofNat 92 :: (ps.flatMap TextPiece.chars ++ Char.ofNat 34 :: rest)) = _
      unfold lexString
      rw [if_neg (by decide), if_pos (by decide)]
      simp only
      rw [if_pos (by decide), ih]
      rfl
    | plain c =>
      show lexString (c.val :: (ps.flatMap TextPiece.chars ++ Char.ofNat 34 :: rest)) = _
      unfold lexString
      rw [if_neg c.property.1, if_neg c.property.2, ih]
      rfl

/-- With fuel for `k` tokens and blanks or more, the characters are read as these tokens. -/
def Lexes (cs : List Char) (toks : List Token) (k : Nat) : Prop := ∀ fuel, k ≤ fuel → lexLine fuel cs = some toks

theorem Lexes.nil : Lexes [] [] 0 := by
  intro fuel _
  unfold lexLine
  rfl

/-- One character that is a token or a blank of its own, or starts a comment. -/
theorem Lexes.comma {cs : List Char} {toks : List Token} {k : Nat} (h : Lexes cs toks k) :
    Lexes (',' :: cs) (.comma :: toks) (k + 1) := by
  rintro (_ | fuel) hf
  · omega
  · unfold lexLine
    simp [h fuel (by omega)]

theorem Lexes.equals {cs : List Char} {toks : List Token} {k : Nat} (h : Lexes cs toks k) :
    Lexes ('=' :: cs) (.equals :: toks) (k + 1) := by
  rintro (_ | fuel) hf
  · omega
  · unfold lexLine
    simp [h fuel (by omega)]

theorem Lexes.blank {cs : List Char} {toks : List Token} {k : Nat} (h : Lexes cs toks k) :
    Lexes (' ' :: cs) toks (k + 1) := by
  rintro (_ | fuel) hf
  · omega
  · unfold lexLine
    simp [h fuel (by omega)]

theorem Lexes.comment (cs : List Char) : Lexes (';' :: cs) [] 1 := by
  rintro (_ | fuel) hf
  · omega
  · unfold lexLine
    simp

/-- A string is one token. -/
theorem Lexes.str {cs : List Char} {toks : List Token} {k : Nat} (ps : List TextPiece) (h : Lexes cs toks k) :
    Lexes ((Written.str ps).chars ++ cs) (.str (textBytes ps) :: toks) (k + 1) := by
  rintro (_ | fuel) hf
  · omega
  · have e : (Written.str ps).chars ++ cs = Char.ofNat 34 :: (ps.flatMap TextPiece.chars ++ Char.ofNat 34 :: cs) := by
      simp [Written.chars]
    rw [e]
    unfold lexLine
    rw [if_neg (by decide), if_neg (by decide), if_neg (by decide), if_neg (by decide), if_pos (by decide),
      lexString_pieces]
    simp [h fuel (by omega)]

theorem lexNumber_cons (a b : Char) (rest : List Char) :
    lexNumber (a :: b :: rest) =
      if a.toNat = 48 ∧ b.toNat = 120 then lexDigits hexDigit 16 false 0 rest
      else lexDigits decDigit 10 false 0 (a :: b :: rest) := rfl

/-- A number is one token. -/
theorem Lexes.int {cs : List Char} {toks : List Token} {k : Nat} (n : Numeral) (he : EndsOperand cs)
    (h : Lexes cs toks k) : Lexes (n.chars ++ cs) (.int n.value :: toks) (k + 1) := by
  rintro (_ | fuel) hf
  · omega
  · have hl := h fuel (by omega)
    cases n with
    | hex d ds =>
      show lexLine (fuel + 1) ('0' :: 'x' :: ((d :: ds).map (fun d => digitChar d.1 d.2.val) ++ cs)) = _
      have := lexDigits_cons hexDigit_digitChar 16 he.hex d ds
      unfold lexLine
      rw [if_neg (by decide), if_neg (by decide), if_neg (by decide), if_neg (by decide), if_neg (by decide),
        if_neg (by decide), if_pos (by decide)]
      rw [lexNumber_cons, if_pos (by decide), this]
      simp [hl, Numeral.value]
    | dec minus d ds =>
      have hd := lexDigits_cons (decDigit_digitChar false) 10 he.dec d ds
      cases minus with
      | true =>
        show lexLine (fuel + 1) ('-' :: ((d :: ds).map (fun d => digitChar false d.val) ++ cs)) = _
        unfold lexLine
        rw [if_neg (by decide), if_neg (by decide), if_neg (by decide), if_neg (by decide), if_neg (by decide),
          if_pos (by decide), hd]
        simp [hl, Numeral.value]
      | false =>
        show lexLine (fuel + 1) (digitChar false d.val :: (ds.map (fun d => digitChar false d.val) ++ cs)) = _
        have hn : lexNumber (digitChar false d.val :: (ds.map (fun d => digitChar false d.val) ++ cs)) =
            some (digitsValue 10 0 ((d :: ds).map Fin.val), cs) := by
          rw [← hd]
          show lexNumber (digitChar false d.val :: (ds.map (fun d => digitChar false d.val) ++ cs)) =
            lexDigits decDigit 10 false 0 (digitChar false d.val :: (ds.map (fun d => digitChar false d.val) ++ cs))
          cases hc : ds.map (fun d => digitChar false d.val) ++ cs with
          | nil => rfl
          | cons b t =>
            have hb : b.toNat ≠ 120 := by
              cases ds with
              | nil =>
                obtain rfl | ⟨c, t', rfl, hc'⟩ := he
                · simp at hc
                · obtain ⟨rfl, -⟩ : c = b ∧ t' = t := by simpa using hc
                  obtain rfl | rfl := hc' <;> decide
              | cons d' ds =>
                obtain ⟨rfl, -⟩ : digitChar false d'.val = b ∧ _ := by simpa using hc
                exact (by decide : ∀ d : Fin 10, (digitChar false d.val).toNat ≠ 120) d'
            rw [lexNumber_cons, if_neg (fun h => hb h.2)]
        unfold lexLine
        have h1 : ∀ d : Fin 10, (digitChar false d.val).toNat ≠ 59 ∧ (digitChar false d.val).toNat ≠ 32 ∧
            (digitChar false d.val).toNat ≠ 9 ∧ (digitChar false d.val).toNat ≠ 44 ∧ (digitChar false d.val).toNat ≠ 61 ∧
            (digitChar false d.val).toNat ≠ 34 ∧ (digitChar false d.val).toNat ≠ 45 := by decide
        obtain ⟨a1, a2, a3, a4, a5, a6, a7⟩ := h1 d
        rw [if_neg a1, if_neg (not_or.2 ⟨a2, a3⟩), if_neg a4, if_neg a5, if_neg a6, if_neg a7,
          if_pos (by rw [decDigit_digitChar]; rfl), hn]
        simp [hl, Numeral.value]

/-- A word that starts with a letter is one token, up to the first character that is no letter, digit or dot. -/
theorem Lexes.word {cs : List Char} {toks : List Token} {k : Nat} (c : Char) (w : List Char)
    (hc : decDigit c = none ∧ isWordChar c = true ∧ c.toNat ≠ 59 ∧ c.toNat ≠ 32 ∧ c.toNat ≠ 9 ∧ c.toNat ≠ 44 ∧
      c.toNat ≠ 61 ∧ c.toNat ≠ 34 ∧ c.toNat ≠ 45)
    (hw : w.all isWordChar = true) (he : cs = [] ∨ ∃ b t, cs = b :: t ∧ isWordChar b = false)
    (h : Lexes cs toks k) : Lexes (c :: w ++ cs) (.word (c :: w) :: toks) (k + 1) := by
  rintro (_ | fuel) hf
  · omega
  · have hl := h fuel (by omega)
    obtain ⟨d, wc, a1, a2, a3, a4, a5, a6, a7⟩ := hc
    have hall : ∀ a ∈ c :: w, isWordChar a = true := by
      intro a ha
      obtain rfl | ha := List.mem_cons.1 ha
      · exact wc
      · exact List.all_eq_true.1 hw a ha
    have ht : cs.takeWhile isWordChar = [] ∧ cs.dropWhile isWordChar = cs := by
      obtain rfl | ⟨b, t, rfl, hb⟩ := he
      · exact ⟨rfl, rfl⟩
      · simp [hb]
    have e1 : (c :: (w ++ cs)).takeWhile isWordChar = c :: w := by
      have := List.takeWhile_append_of_pos (l₂ := cs) hall
      rw [ht.1] at this
      simpa using this
    have e2 : (c :: (w ++ cs)).dropWhile isWordChar = cs := by
      have := List.dropWhile_append_of_pos (l₂ := cs) hall
      rw [ht.2] at this
      simpa using this
    show lexLine (fuel + 1) (c :: (w ++ cs)) = _
    unfold lexLine
    rw [if_neg a1, if_neg (not_or.2 ⟨a2, a3⟩), if_neg a4, if_neg a5, if_neg a6, if_neg a7,
      if_neg (by rw [d]; decide), if_pos wc, e1, e2, hl]
    rfl

/-- The tokens of a written operand. -/
def Written.tokens : Written → List Token
  | .int n => [.int n.value]
  | .str ps => [.str (textBytes ps)]
  | .mb n => [.word ['m', 'b'], .equals, .int n.value]

theorem Numeral.chars_length_pos (n : Numeral) : 1 ≤ n.chars.length := by
  cases n <;> simp [Numeral.chars]
  omega

/-- A written operand is read as its tokens, within its own length. -/
theorem Lexes.written {cs : List Char} {toks : List Token} {k : Nat} (w : Written) (he : EndsOperand cs)
    (hk : k ≤ cs.length) (h : Lexes cs toks k) :
    ∃ k', k' ≤ (w.chars ++ cs).length ∧ Lexes (w.chars ++ cs) (w.tokens ++ toks) k' := by
  cases w with
  | int n =>
    have := n.chars_length_pos
    exact ⟨k + 1, by simp [Written.chars]; omega, Lexes.int n he h⟩
  | str ps => exact ⟨k + 1, by simp [Written.chars]; omega, Lexes.str ps h⟩
  | mb n =>
    have := n.chars_length_pos
    refine ⟨k + 1 + 1 + 1, by simp [Written.chars]; omega, ?_⟩
    exact Lexes.word 'm' ['b'] (by decide) (by decide) (.inr ⟨'=', _, rfl, by decide⟩) (Lexes.equals (Lexes.int n he h))

/-! ### Operand limits (R70) -/

theorem operandField_eq_some {w : Nat} {lo hi v : Int} {f : BitVec w} :
    operandField w lo hi v = some f ↔ (lo ≤ v ∧ v ≤ hi) ∧ f = BitVec.ofInt w v := by
  unfold operandField
  split <;> simp [*, eq_comm]

theorem operandX_eq_some {v : Int} {f : BitVec 16} :
    operandX v = some f ↔ (-32768 ≤ v ∧ v ≤ 32767) ∧ f.toInt = v := by
  unfold operandX
  rw [operandField_eq_some]
  refine and_congr_right fun h => ⟨?_, ?_⟩
  · rintro rfl
    rw [BitVec.toInt_ofInt, Int.bmod_eq_of_le] <;> simp <;> omega
  · rintro rfl
    simp

theorem operandY_eq_some {v : Int} {f : BitVec 8} : operandY v = some f ↔ (-128 ≤ v ∧ v ≤ 127) ∧ f.toInt = v := by
  unfold operandY
  rw [operandField_eq_some]
  refine and_congr_right fun h => ⟨?_, ?_⟩
  · rintro rfl
    rw [BitVec.toInt_ofInt, Int.bmod_eq_of_le] <;> simp <;> omega
  · rintro rfl
    simp

theorem operandField_unsigned {w : Nat} {hi v : Int} {f : BitVec w} (hw : hi < 2 ^ w) :
    operandField w 0 hi v = some f ↔ (0 ≤ v ∧ v ≤ hi) ∧ (f.toNat : Int) = v := by
  rw [operandField_eq_some]
  refine and_congr_right fun h => ⟨?_, ?_⟩
  · rintro rfl
    rw [BitVec.toNat_ofInt, Int.toNat_of_nonneg (Int.emod_nonneg _ (by positivity)), Int.emod_eq_of_lt h.1]
    push_cast
    omega
  · rintro rfl
    rw [BitVec.ofInt_natCast]
    simp

theorem operandBit_eq_some {v : Int} {e : Bool} : operandBit v = some e ↔ v = (if e then 1 else 0) := by
  unfold operandBit
  cases e <;> simp <;> (repeat' split) <;> simp_all

theorem operandMb_eq_some {mb : Option Int} {m : Bool} : operandMb mb = some m ↔ mbGives mb m := by
  unfold operandMb
  rw [operandBit_eq_some]
  cases mb with
  | none => cases m <;> simp [mbGives]
  | some v => simp [mbGives]

theorem operandText_eq_some {t t' : List Byte} : operandText t = some t' ↔ t.length ≤ 255 ∧ t' = t := by
  unfold operandText textFits maxText
  by_cases h : t.length ≤ 255 <;> simp [h, eq_comm]

end Sys2Proof.Machine
end

