-- ==== Sys2Proof/Laws/State.lean ====
section
/-! SUPPORT. One lemma for each field of each update of the state. -/

namespace Sys2Proof.Machine

variable (s : State)

@[simp] theorem State.setFb_params (m : Memory) : (s.setFb m).params = s.params := rfl
@[simp] theorem State.setFb_cfg (m : Memory) : (s.setFb m).cfg = s.cfg := rfl
@[simp] theorem State.setFb_fb (m : Memory) : (s.setFb m).fb = m := rfl
@[simp] theorem State.setFb_tk (m : Memory) : (s.setFb m).tk = s.tk := rfl
@[simp] theorem State.setFb_now (m : Memory) : (s.setFb m).now = s.now := rfl
@[simp] theorem State.setFb_pending (m : Memory) : (s.setFb m).pending = s.pending := rfl
@[simp] theorem State.setFb_rx (m : Memory) : (s.setFb m).rx = s.rx := rfl
@[simp] theorem State.setFb_responses (m : Memory) : (s.setFb m).responses = s.responses := rfl
@[simp] theorem State.setFb_resets (m : Memory) : (s.setFb m).resets = s.resets := rfl

@[simp] theorem State.setTk_params (t : Ticker) : (s.setTk t).params = s.params := rfl
@[simp] theorem State.setTk_cfg (t : Ticker) : (s.setTk t).cfg = s.cfg := rfl
@[simp] theorem State.setTk_fb (t : Ticker) : (s.setTk t).fb = s.fb := rfl
@[simp] theorem State.setTk_tk (t : Ticker) : (s.setTk t).tk = t := rfl
@[simp] theorem State.setTk_now (t : Ticker) : (s.setTk t).now = s.now := rfl
@[simp] theorem State.setTk_pending (t : Ticker) : (s.setTk t).pending = s.pending := rfl
@[simp] theorem State.setTk_rx (t : Ticker) : (s.setTk t).rx = s.rx := rfl
@[simp] theorem State.setTk_responses (t : Ticker) : (s.setTk t).responses = s.responses := rfl
@[simp] theorem State.setTk_resets (t : Ticker) : (s.setTk t).resets = s.resets := rfl

@[simp] theorem State.answer_params (r : Response) : (s.answer r).params = s.params := rfl
@[simp] theorem State.answer_cfg (r : Response) : (s.answer r).cfg = s.cfg := rfl
@[simp] theorem State.answer_fb (r : Response) : (s.answer r).fb = s.fb := rfl
@[simp] theorem State.answer_tk (r : Response) : (s.answer r).tk = s.tk := rfl
@[simp] theorem State.answer_now (r : Response) : (s.answer r).now = s.now := rfl
@[simp] theorem State.answer_pending (r : Response) : (s.answer r).pending = s.pending := rfl
@[simp] theorem State.answer_rx (r : Response) : (s.answer r).rx = s.rx := rfl
@[simp] theorem State.answer_responses (r : Response) : (s.answer r).responses = s.responses ++ [r] := rfl
@[simp] theorem State.answer_resets (r : Response) : (s.answer r).resets = s.resets := rfl

@[simp] theorem State.respond_params (v : Word) : (s.respond v).params = s.params := rfl
@[simp] theorem State.respond_cfg (v : Word) : (s.respond v).cfg = s.cfg := rfl
@[simp] theorem State.respond_fb (v : Word) : (s.respond v).fb = s.fb := rfl
@[simp] theorem State.respond_tk (v : Word) : (s.respond v).tk = s.tk := rfl
@[simp] theorem State.respond_now (v : Word) : (s.respond v).now = s.now := rfl
@[simp] theorem State.respond_pending (v : Word) : (s.respond v).pending = s.pending := rfl
@[simp] theorem State.respond_rx (v : Word) : (s.respond v).rx = s.rx := rfl
@[simp] theorem State.respond_responses (v : Word) : (s.respond v).responses = s.responses ++ [⟨.ok, v⟩] := rfl
@[simp] theorem State.respond_resets (v : Word) : (s.respond v).resets = s.resets := rfl

@[simp] theorem State.reject_params (c : Cause) : (s.reject c).params = s.params := rfl
@[simp] theorem State.reject_cfg (c : Cause) : (s.reject c).cfg = s.cfg := rfl
@[simp] theorem State.reject_fb (c : Cause) : (s.reject c).fb = s.fb := rfl
@[simp] theorem State.reject_tk (c : Cause) : (s.reject c).tk = s.tk := rfl
@[simp] theorem State.reject_now (c : Cause) : (s.reject c).now = s.now := rfl
@[simp] theorem State.reject_pending (c : Cause) : (s.reject c).pending = s.pending := rfl
@[simp] theorem State.reject_rx (c : Cause) : (s.reject c).rx = s.rx := rfl
@[simp] theorem State.reject_responses (c : Cause) : (s.reject c).responses = s.responses ++ [⟨.error c, 0⟩] := rfl
@[simp] theorem State.reject_resets (c : Cause) : (s.reject c).resets = s.resets := rfl

@[simp] theorem State.latch_params (pins : Cfg) : (s.latch pins).params = s.params := rfl
@[simp] theorem State.latch_cfg (pins : Cfg) : (s.latch pins).cfg = pins := rfl
@[simp] theorem State.latch_fb (pins : Cfg) : (s.latch pins).fb = [] := rfl
@[simp] theorem State.latch_tk (pins : Cfg) : (s.latch pins).tk = Ticker.afterReset (s.resets + 1) := rfl
@[simp] theorem State.latch_now (pins : Cfg) : (s.latch pins).now = s.now := rfl
@[simp] theorem State.latch_pending (pins : Cfg) : (s.latch pins).pending = s.pending := rfl
@[simp] theorem State.latch_rx (pins : Cfg) : (s.latch pins).rx = [] := rfl
@[simp] theorem State.latch_responses (pins : Cfg) : (s.latch pins).responses = [] := rfl
@[simp] theorem State.latch_resets (pins : Cfg) : (s.latch pins).resets = s.resets + 1 := rfl

@[simp] theorem State.withFetchWord_params (nbits w : Nat) : (s.withFetchWord nbits w).params = s.params := rfl
@[simp] theorem State.withFetchWord_cfg (nbits w : Nat) : (s.withFetchWord nbits w).cfg = s.cfg := rfl
@[simp] theorem State.withFetchWord_fb (nbits w : Nat) : (s.withFetchWord nbits w).fb = s.fb := rfl
@[simp] theorem State.withFetchWord_tk (nbits w : Nat) : (s.withFetchWord nbits w).tk = s.tk := rfl
@[simp] theorem State.withFetchWord_now (nbits w : Nat) : (s.withFetchWord nbits w).now = s.now := rfl
@[simp] theorem State.withFetchWord_pending (nbits w : Nat) : (s.withFetchWord nbits w).pending = s.pending := rfl
@[simp] theorem State.withFetchWord_rx (nbits w : Nat) : (s.withFetchWord nbits w).rx = packetBytes (tablePacket nbits w) ++ s.rx := rfl
@[simp] theorem State.withFetchWord_responses (nbits w : Nat) : (s.withFetchWord nbits w).responses = s.responses := rfl
@[simp] theorem State.withFetchWord_resets (nbits w : Nat) : (s.withFetchWord nbits w).resets = s.resets := rfl

@[simp] theorem State.advance_params : (advance s).params = s.params := rfl
@[simp] theorem State.advance_cfg : (advance s).cfg = s.cfg := rfl
@[simp] theorem State.advance_fb : (advance s).fb = advanceFb s := rfl
@[simp] theorem State.advance_tk : (advance s).tk = advanceTk s := rfl
@[simp] theorem State.advance_now : (advance s).now = s.now := rfl
@[simp] theorem State.advance_pending : (advance s).pending = s.pending := rfl
@[simp] theorem State.advance_rx : (advance s).rx = s.rx := rfl
@[simp] theorem State.advance_responses : (advance s).responses = s.responses := rfl
@[simp] theorem State.advance_resets : (advance s).resets = s.resets := rfl

@[simp] theorem State.atTime_params (w : Word) : (s.atTime w).params = s.params := rfl
@[simp] theorem State.atTime_cfg (w : Word) : (s.atTime w).cfg = s.cfg := rfl
@[simp] theorem State.atTime_fb (w : Word) : (s.atTime w).fb = s.fb := rfl
@[simp] theorem State.atTime_tk (w : Word) : (s.atTime w).tk = s.tk := rfl
@[simp] theorem State.atTime_now (w : Word) : (s.atTime w).now = w := rfl
@[simp] theorem State.atTime_pending (w : Word) : (s.atTime w).pending = s.pending := rfl
@[simp] theorem State.atTime_rx (w : Word) : (s.atTime w).rx = s.rx := rfl
@[simp] theorem State.atTime_responses (w : Word) : (s.atTime w).responses = s.responses := rfl
@[simp] theorem State.atTime_resets (w : Word) : (s.atTime w).resets = s.resets := rfl

variable (t : Ticker) (gs : List GlyphIndex) (offset interval : Word) (k : Nat)

@[simp] theorem startSession_active : (startSession s gs offset interval).active = true := rfl
@[simp] theorem startSession_offset : (startSession s gs offset interval).offset = offset := rfl
@[simp] theorem startSession_len : (startSession s gs offset interval).len = wordOfNat (measureText s.params gs) := rfl
@[simp] theorem startSession_interval : (startSession s gs offset interval).interval = interval := rfl
@[simp] theorem startSession_last : (startSession s gs offset interval).last = s.now := rfl
@[simp] theorem startSession_gcount : (startSession s gs offset interval).gcount = BitVec.ofNat 8 gs.length := rfl
@[simp] theorem startSession_glyph : (startSession s gs offset interval).glyph = gs := rfl

@[simp] theorem advanceTk_active : (advanceTk s).active = s.tk.active := rfl
@[simp] theorem advanceTk_offset : (advanceTk s).offset = nextOffset s.cfg s.tk.offset s.tk.len := rfl
@[simp] theorem advanceTk_len : (advanceTk s).len = s.tk.len := rfl
@[simp] theorem advanceTk_interval : (advanceTk s).interval = s.tk.interval := rfl
@[simp] theorem advanceTk_last : (advanceTk s).last = s.now := rfl
@[simp] theorem advanceTk_gcount : (advanceTk s).gcount = s.tk.gcount := rfl
@[simp] theorem advanceTk_glyph : (advanceTk s).glyph = s.tk.glyph := rfl

@[simp] theorem Ticker.afterReset_active : (Ticker.afterReset k).active = false := rfl
@[simp] theorem Ticker.afterReset_gcount : (Ticker.afterReset k).gcount = Config.tkGcount k := rfl
@[simp] theorem Ticker.afterReset_glyph_length :
    (Ticker.afterReset k).glyph.length = (Config.tkGcount k).toNat := by
  simp [Ticker.afterReset]

/-- A byte of a state reads its frame buffer. -/
theorem State.byte_eq (a : Nat) : s.byte a = s.fb.byte s.resets a := rfl

/-- A pixel of a state reads its frame buffer through its configuration. -/
theorem State.pixel_eq (x y : Int) : s.pixel x y = Machine.pixel s.cfg s.resets s.fb x y := rfl

/-- Bytes and pixels do not see the responses. -/
@[simp] theorem State.answer_byte (r : Response) (a : Nat) : (s.answer r).byte a = s.byte a := rfl
@[simp] theorem State.respond_byte (v : Word) (a : Nat) : (s.respond v).byte a = s.byte a := rfl
@[simp] theorem State.reject_byte (c : Cause) (a : Nat) : (s.reject c).byte a = s.byte a := rfl
@[simp] theorem State.setTk_byte (a : Nat) : (s.setTk t).byte a = s.byte a := rfl
@[simp] theorem State.setFb_byte (m : Memory) (a : Nat) : (s.setFb m).byte a = m.byte s.resets a := rfl
@[simp] theorem State.answer_pixel (r : Response) (x y : Int) : (s.answer r).pixel x y = s.pixel x y := rfl
@[simp] theorem State.respond_pixel (v : Word) (x y : Int) : (s.respond v).pixel x y = s.pixel x y := rfl
@[simp] theorem State.reject_pixel (c : Cause) (x y : Int) : (s.reject c).pixel x y = s.pixel x y := rfl
@[simp] theorem State.setTk_pixel (x y : Int) : (s.setTk t).pixel x y = s.pixel x y := rfl
@[simp] theorem State.setFb_pixel (m : Memory) (x y : Int) :
    (s.setFb m).pixel x y = Machine.pixel s.cfg s.resets m x y := rfl

end Sys2Proof.Machine
end

