-- ==== Sys2Proof/Laws/Memory.lean ====
section
/-! SUPPORT. The frame buffer's bytes: read after write, the canonical form and its bounds, clearing. -/

namespace Sys2Proof.Machine

/-- Read after write, at the same offset and at every other. -/
theorem Memory.get?_set (m : Memory) (a : Nat) (v : Byte) (b : Nat) :
    (Memory.set m a v).get? b = if b = a then some v else m.get? b := by
  induction m with
  | nil => simp only [Memory.set, Memory.get?]; split <;> simp_all
  | cons c m ih =>
    obtain ⟨x, w⟩ := c
    simp only [Memory.set]
    split
    · simp only [Memory.get?]; grind
    · split
      · simp only [Memory.get?]; grind
      · simp only [Memory.get?, ih]; grind

/-- A byte after a write. -/
theorem Memory.byte_set (k : Nat) (m : Memory) (a : Nat) (v : Byte) (b : Nat) :
    Memory.byte k (Memory.set m a v) b = if b = a then v else Memory.byte k m b := by
  simp only [Memory.byte, Memory.get?_set]
  split <;> rfl

@[simp] theorem Memory.byte_set_same (k : Nat) (m : Memory) (a : Nat) (v : Byte) :
    Memory.byte k (Memory.set m a v) a = v := by simp [Memory.byte_set]

/-- The entries after a write are the new one and old ones. -/
theorem Memory.mem_set {m : Memory} {a : Nat} {v : Byte} {c : Host.Cell} (h : c ∈ Memory.set m a v) :
    c = (a, v) ∨ c ∈ m := by
  induction m with
  | nil => simpa [Memory.set] using h
  | cons d m ih =>
    obtain ⟨x, w⟩ := d
    simp only [Memory.set] at h
    split at h
    · simpa using h
    · split at h <;> grind

/-- The canonical form says that the offsets rise from each entry to all later ones. -/
theorem Memory.wf_cons (x : Nat) (w : Byte) (m : Memory) :
    Memory.wf ((x, w) :: m) = true ↔ (∀ c ∈ m, x < c.1) ∧ Memory.wf m = true := by
  induction m generalizing x w with
  | nil => simp [Memory.wf]
  | cons d m ih =>
    obtain ⟨y, u⟩ := d
    have e : Memory.wf ((x, w) :: (y, u) :: m) = (decide (x < y) && Memory.wf ((y, u) :: m)) := rfl
    rw [e, Bool.and_eq_true, decide_eq_true_iff]
    constructor
    · rintro ⟨hxy, hm⟩
      refine ⟨?_, hm⟩
      intro c hc
      rcases List.mem_cons.mp hc with rfl | hc
      · exact hxy
      · exact lt_trans hxy (((ih y u).mp hm).1 c hc)
    · rintro ⟨h, hm⟩
      exact ⟨h (y, u) (by simp), hm⟩

/-- A write keeps the canonical form. -/
theorem Memory.wf_set {m : Memory} (a : Nat) (v : Byte) (h : Memory.wf m = true) :
    Memory.wf (Memory.set m a v) = true := by
  induction m with
  | nil => rfl
  | cons d m ih =>
    obtain ⟨x, w⟩ := d
    have hx := (Memory.wf_cons x w m).mp h
    simp only [Memory.set]
    split
    · rename_i hax
      refine (Memory.wf_cons a v _).mpr ⟨?_, h⟩
      intro c hc
      rcases List.mem_cons.mp hc with rfl | hc
      · exact hax
      · exact lt_trans hax (hx.1 c hc)
    · split
      · rename_i hax
        subst hax
        exact (Memory.wf_cons a v m).mpr hx
      · refine (Memory.wf_cons x w _).mpr ⟨?_, ih hx.2⟩
        intro c hc
        rcases Memory.mem_set hc with rfl | hc
        · simp only; omega
        · exact hx.1 c hc

/-- Frame buffers in canonical form whose written bytes agree are equal data. -/
theorem Memory.ext_of_get? {m n : Memory} (hm : Memory.wf m = true) (hn : Memory.wf n = true)
    (h : ∀ a, m.get? a = n.get? a) : m = n := by
  induction m generalizing n with
  | nil =>
    cases n with
    | nil => rfl
    | cons d n => obtain ⟨y, u⟩ := d; simpa [Memory.get?] using h y
  | cons c m ih =>
    obtain ⟨x, w⟩ := c
    cases n with
    | nil => simpa [Memory.get?] using h x
    | cons d n =>
      obtain ⟨y, u⟩ := d
      have hx := h x
      have hy := h y
      have hxy : x = y := by
        simp only [Memory.get?] at hx hy
        by_contra hne
        rcases Nat.lt_or_gt_of_ne hne with hlt | hlt <;> grind
      subst hxy
      have hwu : w = u := by simpa [Memory.get?] using hx
      subst hwu
      have hm' := (Memory.wf_cons x w m).mp hm
      have hn' := (Memory.wf_cons x w n).mp hn
      refine congrArg _ (ih hm'.2 hn'.2 ?_)
      have below : ∀ (l : Memory), (∀ c ∈ l, x < c.1) → ∀ a, a ≤ x → Memory.get? l a = none := by
        intro l hl a ha
        cases l with
        | nil => rfl
        | cons e l =>
          obtain ⟨z, q⟩ := e
          have hz : x < z := hl (z, q) (by simp)
          simp only [Memory.get?]
          rw [if_neg (by omega), if_pos (by omega)]
      intro a
      by_cases ha : a ≤ x
      · rw [below m hm'.1 a ha, below n hn'.1 a ha]
      · have := h a
        simp only [Memory.get?] at this
        rwa [if_neg (by omega), if_neg (by omega), if_neg (by omega), if_neg (by omega)] at this

/-- What a series of equal writes does to a read. -/
theorem Memory.get?_fill (l : List Nat) (v : Byte) (m : Memory) (b : Nat) :
    (l.foldl (fun m a => Memory.set m a v) m).get? b = if b ∈ l then some v else m.get? b := by
  induction l generalizing m with
  | nil => simp
  | cons a l ih => simp only [List.foldl_cons, ih, Memory.get?_set, List.mem_cons]; grind

/-- Clearing writes 0 to every offset below 8·N, and to no other (R91). -/
theorem Memory.byte_clear (c : Cfg) (k : Nat) (m : Memory) (a : Nat) :
    Memory.byte k (Memory.clear c m) a = if a < fbSize c then 0 else Memory.byte k m a := by
  simp only [Memory.byte, Memory.clear, Memory.get?_fill, List.mem_range]
  split <;> rfl

/-- A property that one write keeps, a series of writes keeps. -/
theorem foldl_keeps {α β : Type} (P : β → Prop) (f : β → α → β) (l : List α)
    (h : ∀ b a, a ∈ l → P b → P (f b a)) (b : β) (hb : P b) : P (l.foldl f b) := by
  induction l generalizing b with
  | nil => exact hb
  | cons a l ih =>
    exact ih (fun b' a' ha' => h b' a' (List.mem_cons_of_mem _ ha')) _ (h b a (List.mem_cons_self ..) hb)

/-- Clearing keeps the canonical form. -/
theorem Memory.wf_clear (c : Cfg) {m : Memory} (h : Memory.wf m = true) : Memory.wf (Memory.clear c m) = true :=
  foldl_keeps (fun m => Memory.wf m = true) _ _ (fun _ a _ hb => Memory.wf_set a 0 hb) m h

/-- Every listed offset exists in a frame buffer of configuration `c`. -/
def Memory.within (c : Cfg) (m : Memory) : Prop := ∀ e ∈ m, e.1 < fbSize c

/-- A write inside the frame buffer keeps the listed offsets inside. -/
theorem Memory.within_set {c : Cfg} {m : Memory} {a : Nat} (v : Byte) (ha : a < fbSize c) (h : m.within c) :
    (Memory.set m a v).within c := by
  intro e he
  rcases Memory.mem_set he with rfl | he
  · exact ha
  · exact h e he

/-- Clearing keeps the listed offsets inside. -/
theorem Memory.within_clear {c : Cfg} {m : Memory} (h : m.within c) : (Memory.clear c m).within c :=
  foldl_keeps (Memory.within c) _ _ (fun _ _ ha hb => Memory.within_set 0 (List.mem_range.mp ha) hb) m h

/-- The frame buffer right after a reset has the canonical form. -/
theorem wf_afterReset (params : Params) (pins : Cfg) (k : Nat) : Memory.wf (State.afterReset params pins k).fb = true := rfl

end Sys2Proof.Machine
end

