-- ==== Sys2Proof/Laws/Pixel.lean ====
section
/-! SUPPORT. The coordinate transform and the pixel operations: where a pixel lies, that two pixels never share a bit, and
what a pixel write does to every pixel and every byte. -/

namespace Sys2Proof.Machine

/-- The physical row, segment and bit of an in-range pixel, as numbers (R83). -/
def physRow (c : Cfg) (y : Int) : Nat := if c.my then 7 - y.toNat else y.toNat
def physSeg (c : Cfg) (x : Int) : Nat := if c.mxd then c.n.toNat - 1 - x.toNat / 8 else x.toNat / 8
def physBit (c : Cfg) (x : Int) : Nat := if c.mxs then x.toNat % 8 else 7 - x.toNat % 8
def physOff (c : Cfg) (x y : Int) : Nat := physRow c y * c.n.toNat + physSeg c x

theorem physBit_lt (c : Cfg) (x : Int) : physBit c x < 8 := by
  unfold physBit; split <;> omega

theorem physRow_lt {c : Cfg} {x y : Int} (h : inDisplay c x y) : physRow c y < 8 := by
  have := h.2.2.1; have := h.2.2.2
  unfold physRow; split <;> omega

theorem physSeg_lt {c : Cfg} {x y : Int} (h : inDisplay c x y) : physSeg c x < c.n.toNat := by
  have := h.1; have := h.2.1
  unfold displayWidth at this
  unfold physSeg; split <;> omega

theorem physOff_lt {c : Cfg} {x y : Int} (h : inDisplay c x y) : physOff c x y < fbSize c := by
  have h1 := physRow_lt h
  have h2 := physSeg_lt h
  unfold physOff fbSize
  calc physRow c y * c.n.toNat + physSeg c x < physRow c y * c.n.toNat + c.n.toNat := by omega
    _ = (physRow c y + 1) * c.n.toNat := by ring
    _ ≤ 8 * c.n.toNat := Nat.mul_le_mul_right _ (by omega)

/-- Out of range, Transform answers OutOfRange (R80). -/
theorem transform_out {c : Cfg} {x y : Int} (h : ¬ inDisplay c x y) : transform c x y = none := by
  unfold inDisplay at h
  unfold transform
  rw [if_pos (by omega)]

/-- In range, Transform answers the offset and the one-hot mask (R80, R83). -/
theorem transform_in {c : Cfg} {x y : Int} (h : inDisplay c x y) :
    transform c x y = some (physOff c x y, (1 : Byte) <<< physBit c x) := by
  have hx : ¬ (x < 0 ∨ x ≥ (displayWidth c : Int) ∨ y < 0 ∨ y ≥ 8) := by
    unfold inDisplay at h; omega
  have hb : 7 - (if c.mxs then 7 - x.toNat % 8 else x.toNat % 8) = physBit c x := by
    unfold physBit; split <;> omega
  unfold transform
  rw [if_neg hx]
  simp only [hb, physOff, physRow, physSeg]

/-- A pixel's row, segment and column give back its coordinates, so no two pixels share a bit (R84). -/
theorem phys_injective {c : Cfg} {x y x' y' : Int} (h : inDisplay c x y) (h' : inDisplay c x' y')
    (ho : physOff c x y = physOff c x' y') (hb : physBit c x = physBit c x') : x = x' ∧ y = y' := by
  have s1 := physSeg_lt h
  have s2 := physSeg_lt h'
  have hn : 0 < c.n.toNat := by omega
  have hrow : physRow c y = physRow c y' := by
    have e := congrArg (· / c.n.toNat) ho
    simpa [physOff, Nat.mul_comm _ c.n.toNat, Nat.mul_add_div hn, Nat.div_eq_of_lt s1, Nat.div_eq_of_lt s2] using e
  have hseg : physSeg c x = physSeg c x' := by
    unfold physOff at ho; rw [hrow] at ho; omega
  unfold inDisplay displayWidth at h h'
  unfold physRow at hrow
  unfold physSeg at hseg
  unfold physBit at hb
  refine ⟨?_, ?_⟩
  · have hd : x.toNat / 8 = x'.toNat / 8 := by split at hseg <;> omega
    have hm : x.toNat % 8 = x'.toNat % 8 := by split at hb <;> omega
    omega
  · split at hrow <;> omega

/-- Testing a byte with a one-hot mask reads one bit. -/
theorem and_oneHot_ne_zero (b : Byte) (j : Nat) (hj : j < 8) : (b &&& (1 : Byte) <<< j != 0) = b.getLsbD j := by
  revert b
  interval_cases j <;> decide +kernel

/-- Reading a pixel reads one bit of one byte (R93). -/
theorem pixel_in {c : Cfg} {x y : Int} (h : inDisplay c x y) (k : Nat) (m : Memory) :
    pixel c k m x y = (m.byte k (physOff c x y)).getLsbD (physBit c x) := by
  unfold pixel
  rw [transform_in h]
  exact and_oneHot_ne_zero _ _ (physBit_lt c x)

/-- Out of range, a pixel reads 0 (R81). -/
theorem pixel_out {c : Cfg} {x y : Int} (h : ¬ inDisplay c x y) (k : Nat) (m : Memory) : pixel c k m x y = false := by
  unfold pixel
  rw [transform_out h]

/-- The byte that a pixel write stores (R46). -/
def pixelByte (b : Byte) (j : Nat) (en : Bool) : Byte :=
  if en then b ||| (1 : Byte) <<< j else b &&& ~~~((1 : Byte) <<< j)

theorem pixelByte_getLsbD (b : Byte) (j i : Nat) (hj : j < 8) (hi : i < 8) (en : Bool) :
    (pixelByte b j en).getLsbD i = if i = j then en else b.getLsbD i := by
  unfold pixelByte
  revert b
  interval_cases j <;> interval_cases i <;> cases en <;> decide +kernel

/-- A pixel write in range is one byte write (R90). -/
theorem setPixel_in {c : Cfg} {x y : Int} (h : inDisplay c x y) (k : Nat) (m : Memory) (en : Bool) :
    setPixel c k m x y en =
      Memory.set m (physOff c x y) (pixelByte (m.byte k (physOff c x y)) (physBit c x) en) := by
  unfold setPixel pixelByte
  rw [transform_in h]
  cases en <;> rfl

/-- A pixel write out of range does nothing (R81, R90). -/
theorem setPixel_out {c : Cfg} {x y : Int} (h : ¬ inDisplay c x y) (k : Nat) (m : Memory) (en : Bool) :
    setPixel c k m x y en = m := by
  unfold setPixel
  rw [transform_out h]

/-- What a pixel write does to every byte: only the byte of its own pixel changes. -/
theorem byte_setPixel (c : Cfg) (k : Nat) (m : Memory) (x y : Int) (en : Bool) (a : Nat)
    (h : ∀ off mask, transform c x y = some (off, mask) → a ≠ off) :
    Memory.byte k (setPixel c k m x y en) a = Memory.byte k m a := by
  by_cases hd : inDisplay c x y
  · rw [setPixel_in hd, Memory.byte_set, if_neg (h _ _ (transform_in hd))]
  · rw [setPixel_out hd]

/-- What a pixel write does to every pixel: its own pixel ends as written if in range, every other is unchanged (R94). -/
theorem pixel_setPixel (c : Cfg) (k : Nat) (m : Memory) (x y : Int) (en : Bool) (x' y' : Int) :
    pixel c k (setPixel c k m x y en) x' y' =
      if x' = x ∧ y' = y ∧ inDisplay c x y then en else pixel c k m x' y' := by
  by_cases hd : inDisplay c x y
  · by_cases hd' : inDisplay c x' y'
    · rw [setPixel_in hd, pixel_in hd', pixel_in hd', Memory.byte_set]
      by_cases ho : physOff c x' y' = physOff c x y
      · rw [if_pos ho, pixelByte_getLsbD _ _ _ (physBit_lt c x) (physBit_lt c x'), ho]
        by_cases hb : physBit c x' = physBit c x
        · have := phys_injective hd' hd ho hb
          rw [if_pos hb, if_pos ⟨this.1, this.2, hd⟩]
        · rw [if_neg hb, if_neg]
          rintro ⟨rfl, -, -⟩
          exact hb rfl
      · rw [if_neg ho, if_neg]
        rintro ⟨rfl, rfl, -⟩
        exact ho rfl
    · rw [pixel_out hd', pixel_out hd', if_neg]
      rintro ⟨rfl, rfl, -⟩
      exact hd' hd
  · rw [setPixel_out hd, if_neg (fun h => hd h.2.2)]

/-- After clearing, every pixel reads 0. -/
theorem pixel_clear (c : Cfg) (k : Nat) (m : Memory) (x y : Int) : pixel c k (Memory.clear c m) x y = false := by
  by_cases hd : inDisplay c x y
  · rw [pixel_in hd, Memory.byte_clear, if_pos (physOff_lt hd)]
    simp
  · exact pixel_out hd k _

/-- A pixel write keeps the canonical form. -/
theorem wf_setPixel (c : Cfg) (k : Nat) {m : Memory} (x y : Int) (en : Bool) (h : Memory.wf m = true) :
    Memory.wf (setPixel c k m x y en) = true := by
  by_cases hd : inDisplay c x y
  · rw [setPixel_in hd]; exact Memory.wf_set _ _ h
  · rwa [setPixel_out hd]

/-- A pixel write keeps the listed offsets inside. -/
theorem within_setPixel (c : Cfg) (k : Nat) {m : Memory} (x y : Int) (en : Bool) (h : m.within c) :
    (setPixel c k m x y en).within c := by
  by_cases hd : inDisplay c x y
  · rw [setPixel_in hd]; exact Memory.within_set _ (physOff_lt hd) h
  · rwa [setPixel_out hd]

end Sys2Proof.Machine
end

