-- ==== Sys2Proof/Laws/Draw.lean ====
section
/-! SUPPORT. The decoder's length, Measure, and what Draw does to every pixel and to the cursor. -/

namespace Sys2Proof.Machine

/-! ### Decoder and Measure -/

theorem decodeByte_length (b : Byte) : (decodeByte b).length ≤ 1 := by
  unfold decodeByte; split <;> simp

/-- No more glyphs than bytes (R107). -/
theorem decodeText_length (p : Params) (mb : Bool) : ∀ text, (decodeText p mb text).length ≤ text.length
  | [] => by simp [decodeText]
  | [b] => by simpa [decodeText] using decodeByte_length b
  | b :: c :: rest => by
    have h1 := decodeText_length p mb rest
    have h2 := decodeText_length p mb (c :: rest)
    have h3 := decodeByte_length b
    unfold decodeText
    split
    · simp only [List.length_cons]; omega
    · split
      · simp only [List.length_cons]; omega
      · simp only [List.length_append, List.length_cons] at *; omega

/-- With distinct pairs, the symbol the decoder finds is the one that MB_PAIRS names (R104). -/
theorem symbolOf_eq_some {p : Params} (hp : ∀ a b : Symbol, p.mbPairs.get a = p.mbPairs.get b → a = b) {v c : Byte}
    {y : Symbol} : symbolOf p v c = some y ↔ p.mbPairs.get y = (v, c) := by
  have mem : y ∈ Symbol.all := by cases y <;> decide
  unfold symbolOf
  constructor
  · intro h
    simpa using List.find?_some h
  · intro h
    cases hf : Symbol.all.find? fun z => p.mbPairs.get z == (v, c) with
    | none =>
      have := List.find?_eq_none.1 hf y mem
      simp [h] at this
    | some z =>
      have hz : p.mbPairs.get z = (v, c) := by simpa using List.find?_some hf
      rw [hp z y (hz.trans h.symm)]

/-- The decoder finds no symbol exactly when no pair of MB_PAIRS is there. -/
theorem symbolOf_eq_none {p : Params} {v c : Byte} : symbolOf p v c = none ↔ ∀ y, p.mbPairs.get y ≠ (v, c) := by
  have mem : ∀ y, y ∈ Symbol.all := by intro y; cases y <;> decide
  unfold symbolOf
  rw [List.find?_eq_none]
  exact ⟨fun h y => by simpa using h y (mem y), fun h y _ => by simpa using h y⟩

/-- LEADS is the set of the pairs' first bytes (R104). -/
theorem isLead_iff {p : Params} {v : Byte} : isLead p v = true ↔ ∃ y, (p.mbPairs.get y).1 = v := by
  have mem : ∀ y, y ∈ Symbol.all := by intro y; cases y <;> decide
  unfold isLead
  rw [List.any_eq_true]
  exact ⟨fun ⟨y, _, h⟩ => ⟨y, by simpa using h⟩, fun ⟨y, h⟩ => ⟨y, mem y, by simpa using h⟩⟩

theorem measureText_append (p : Params) (a b : List GlyphIndex) : measureText p (a ++ b) = measureText p a + measureText p b := by
  induction a with
  | nil => simp [measureText]
  | cons g a ih => simp only [List.cons_append, measureText, ih]; omega

/-- Measure is the advance plus one column for each glyph (R121). -/
theorem measureText_eq (p : Params) (gs : List GlyphIndex) : measureText p gs = textWidth p gs + gs.length := by
  induction gs with
  | nil => rfl
  | cons g gs ih => simp only [measureText, textWidth, ih, List.length_cons]; omega

theorem textWidth_append (p : Params) (a b : List GlyphIndex) :
    textWidth p (a ++ b) = textWidth p a + textWidth p b := by
  induction a with
  | nil => simp [textWidth]
  | cons g a ih => simp only [List.cons_append, textWidth, ih]; omega

/-- Legal parameters give every glyph a width in 1..8 (R102). -/
theorem widthOf_bounds {p : Params} (h : p.legal = true) (g : GlyphIndex) : 1 ≤ widthOf p g ∧ widthOf p g ≤ 8 := by
  have hr : p.romLegal = true := by
    unfold Params.legal at h; simp only [Bool.and_eq_true] at h; exact h.1.1
  have ha : p.rom.all (fun g => decide (1 ≤ g.width ∧ g.width ≤ 8)) = true := by
    unfold Params.romLegal at hr; simp only [Bool.and_eq_true] at hr; exact hr.1.1
  rw [Vector.all_eq_true] at ha
  exact of_decide_eq_true (ha g.val g.isLt)

/-- Measure is at most 9 columns a glyph (R17, R120). -/
theorem measureText_le {p : Params} (h : p.legal = true) (gs : List GlyphIndex) : measureText p gs ≤ 9 * gs.length := by
  induction gs with
  | nil => simp [measureText]
  | cons g gs ih =>
    have := (widthOf_bounds h g).2
    simp only [measureText, List.length_cons]; omega

/-! ### The cursor -/

/-- The cursor moves by the sum of the widths (R122, R126). -/
theorem drawFrom_cursor (p : Params) (c : Cfg) (k : Nat) (gs : List GlyphIndex) (cur : Int) (m : Memory) :
    (drawFrom p c k gs cur m).2 = cur + textWidth p gs := by
  induction gs generalizing cur m with
  | nil => simp [drawFrom, textWidth]
  | cons g gs ih => simp only [drawFrom, ih, textWidth]; push_cast; omega

/-- Draw returns the sum of the widths (R123, R126). -/
theorem draw_width (p : Params) (c : Cfg) (k : Nat) (x0 : Int) (gs : List GlyphIndex) (m : Memory) :
    (draw p c k x0 gs m).2 = textWidth p gs := by
  simp only [draw, drawFrom_cursor]; omega

/-! ### The pixels -/

/-- What a column's writes do to every pixel. -/
theorem pixel_drawRows (c : Cfg) (k : Nat) (g : Glyph) (col : Nat) (x : Int) (l : List (Fin 8)) (m : Memory)
    (x' : Int) (r : Fin 8) :
    pixel c k (l.foldl (fun m r => setPixel c k m x (r.val : Int) (glyphBit g r col)) m) x' r =
      if x' = x ∧ r ∈ l ∧ inDisplay c x r then glyphBit g r col else pixel c k m x' r := by
  induction l generalizing m with
  | nil => simp
  | cons a l ih =>
    rw [List.foldl_cons, ih, pixel_setPixel]
    by_cases har : r = a
    · subst har; grind
    · have : ¬ ((r.val : Int) = (a.val : Int)) := by
        intro h; exact har (Fin.ext (by exact_mod_cast h))
      grind

theorem pixel_drawColumn (c : Cfg) (k : Nat) (g : Glyph) (col : Nat) (x : Int) (m : Memory) (x' : Int) (r : Fin 8) :
    pixel c k (drawColumn c k g col x m) x' r =
      if x' = x ∧ inDisplay c x r then glyphBit g r col else pixel c k m x' r := by
  unfold drawColumn
  rw [pixel_drawRows]
  simp

/-- What the columns of a glyph do to every pixel. -/
theorem pixel_drawColumns (c : Cfg) (k : Nat) (g : Glyph) (cur : Int) (n : Nat) (m : Memory) (x' : Int) (r : Fin 8) :
    pixel c k ((List.range n).foldl (fun m col => drawColumn c k g col (cur + col) m) m) x' r =
      if cur ≤ x' ∧ x' < cur + n ∧ inDisplay c x' r then glyphBit g r (x' - cur).toNat else pixel c k m x' r := by
  induction n with
  | zero => simp only [List.range_zero, List.foldl_nil]; grind
  | succ n ih =>
    rw [List.range_succ, List.foldl_append, List.foldl_cons, List.foldl_nil, pixel_drawColumn, ih]
    by_cases hx : x' = cur + n
    · subst hx
      have : (cur + (n : Int) - cur).toNat = n := by omega
      rw [this]
      grind
    · rw [if_neg (fun h => hx h.1)]
      have : (x' < cur + n) ↔ (x' < cur + (n + 1 : Nat)) ∨ False := by
        constructor
        · intro h; left; push_cast; omega
        · rintro (h | h)
          · push_cast at h; omega
          · exact h.elim
      grind

/-- What a glyph does to every pixel (R123). -/
theorem pixel_drawGlyph (p : Params) (c : Cfg) (k : Nat) (g : GlyphIndex) (cur : Int) (m : Memory) (x' : Int)
    (r : Fin 8) :
    pixel c k (drawGlyph p c k g cur m) x' r =
      if cur ≤ x' ∧ x' < cur + drawnColumns p g ∧ inDisplay c x' r then
        glyphBit (glyphAt p g) r (x' - cur).toNat
      else pixel c k m x' r := by
  unfold drawGlyph
  exact pixel_drawColumns c k _ cur _ m x' r

/-- What Draw does to every pixel of the display: the last write of the text there, else nothing (R123). -/
theorem pixel_drawFrom (p : Params) (c : Cfg) (k : Nat) (gs : List GlyphIndex) (cur : Int) (m : Memory) (x : Int)
    (r : Fin 8) (hd : inDisplay c x r) :
    pixel c k (drawFrom p c k gs cur m).1 x r = (textPixel p gs cur x r).getD (pixel c k m x r) := by
  induction gs generalizing cur m with
  | nil => rfl
  | cons g gs ih =>
    simp only [drawFrom, ih, textPixel, pixel_drawGlyph]
    cases h : textPixel p gs (cur + widthOf p g) x r with
    | some b => rfl
    | none =>
      simp only [Option.getD_none]
      by_cases hc : cur ≤ x ∧ x < cur + drawnColumns p g
      · rw [if_pos ⟨hc.1, hc.2, hd⟩, if_pos hc]; rfl
      · rw [if_neg (fun h => hc ⟨h.1, h.2.1⟩), if_neg hc]; rfl

/-- Left of the cursor a text writes nothing. -/
theorem textPixel_left (p : Params) (gs : List GlyphIndex) (cur x : Int) (r : Fin 8) (h : x < cur) :
    textPixel p gs cur x r = none := by
  induction gs generalizing cur with
  | nil => rfl
  | cons g gs ih => simp only [textPixel, ih (cur + widthOf p g) (by omega)]; rw [if_neg (by omega)]

/-- Under WIDTH, right of its width a text writes nothing (R126). -/
theorem textPixel_right {p : Params} (hw : p.drawColumns = .width) (gs : List GlyphIndex) (cur x : Int) (r : Fin 8)
    (h : cur + textWidth p gs ≤ x) : textPixel p gs cur x r = none := by
  induction gs generalizing cur with
  | nil => rfl
  | cons g gs ih =>
    simp only [textWidth] at h
    push_cast at h
    simp only [textPixel, ih (cur + widthOf p g) (by omega), drawnColumns, hw]
    rw [if_neg (by omega)]

/-- The pixel at column `col < WID(g)` of glyph `g` is that glyph's font bit, whatever stands before or after it (R126). -/
theorem textPixel_glyph {p : Params} (pre : List GlyphIndex) (g : GlyphIndex) (post : List GlyphIndex) (cur : Int)
    (col : Nat) (r : Fin 8) (hc : col < widthOf p g) (hn : widthOf p g ≤ 8) :
    textPixel p (pre ++ g :: post) cur (cur + textWidth p pre + col) r = some (glyphBit (glyphAt p g) r col) := by
  induction pre generalizing cur with
  | nil =>
    simp only [List.nil_append, textPixel, textWidth]
    rw [textPixel_left p post _ _ r (by push_cast; omega)]
    have hd : widthOf p g ≤ drawnColumns p g := by unfold drawnColumns; split <;> omega
    simp only
    rw [if_pos (by push_cast; omega)]
    congr 2
    push_cast
    omega
  | cons a pre ih =>
    have e : cur + (textWidth p (a :: pre) : Int) + col = (cur + widthOf p a) + textWidth p pre + col := by
      simp only [textWidth]; push_cast; omega
    simp only [List.cons_append, textPixel]
    rw [e, ih]

/-! ### The frame buffer's form -/

/-- A property that pixel writes keep, Draw keeps. -/
theorem drawFrom_keeps (P : Memory → Prop) (p : Params) (c : Cfg) (k : Nat)
    (h : ∀ m x y en, P m → P (setPixel c k m x y en)) (gs : List GlyphIndex) (cur : Int) (m : Memory) (hm : P m) :
    P (drawFrom p c k gs cur m).1 := by
  induction gs generalizing cur m with
  | nil => exact hm
  | cons g gs ih =>
    refine ih _ _ (foldl_keeps P _ _ (fun m col _ hm => ?_) m hm)
    exact foldl_keeps P _ _ (fun m r _ hm => h m _ _ _ hm) m hm

theorem wf_draw (p : Params) (c : Cfg) (k : Nat) (x0 : Int) (gs : List GlyphIndex) {m : Memory}
    (h : Memory.wf m = true) : Memory.wf (draw p c k x0 gs m).1 = true :=
  drawFrom_keeps (fun m => Memory.wf m = true) p c k (fun _ x y en => wf_setPixel c k x y en) gs x0 m h

theorem within_draw (p : Params) (c : Cfg) (k : Nat) (x0 : Int) (gs : List GlyphIndex) {m : Memory}
    (h : m.within c) : (draw p c k x0 gs m).1.within c :=
  drawFrom_keeps (Memory.within c) p c k (fun _ x y en => within_setPixel c k x y en) gs x0 m h

/-- Draw changes no byte outside the frame buffer's 8·N. -/
theorem byte_draw_outside (p : Params) (c : Cfg) (k : Nat) (x0 : Int) (gs : List GlyphIndex) (m : Memory) (a : Nat)
    (ha : fbSize c ≤ a) : Memory.byte k (draw p c k x0 gs m).1 a = Memory.byte k m a := by
  refine drawFrom_keeps (fun m' => Memory.byte k m' a = Memory.byte k m a) p c k ?_ gs x0 m rfl
  intro m' x y en hm'
  rw [← hm']
  refine byte_setPixel c k m' x y en a ?_
  intro off mask ht
  by_cases hd : inDisplay c x y
  · rw [transform_in hd] at ht
    have := physOff_lt hd
    simp only [Option.some.injEq, Prod.mk.injEq] at ht
    omega
  · rw [transform_out hd] at ht; exact absurd ht (by simp)

end Sys2Proof.Machine
end

