-- ==== Sys2Proof/Laws/Encoding.lean ====
section
/-! SUPPORT. The fields of a header that is made of its fields, and the bytes of a word. -/

namespace Sys2Proof

section
variable (op : BitVec 4) (f d : Bool) (x : BitVec 16) (low : BitVec 8)

/-- A header's bits, field by field (R63). -/
theorem headerOf_getLsbD (i : Nat) :
    (headerOf op f d x low).getLsbD i =
      if i < 8 then low.getLsbD i else if i < 24 then x.getLsbD (i - 8) else if i < 26 then false
      else if i = 26 then d else if i = 27 then f else op.getLsbD (i - 28) := by
  unfold headerOf
  simp only [BitVec.getLsbD_append, BitVec.getLsbD_ofBool]
  rcases Nat.lt_or_ge i 8 with h | h
  · simp [h]
  · rcases Nat.lt_or_ge i 24 with h2 | h2
    · have : i - 8 < 16 := by omega
      simp [this, h2, Nat.not_lt.mpr h]
    · rcases Nat.lt_or_ge i 28 with h3 | h3
      · interval_cases i <;> simp
      · have e : i - 8 - 16 - 2 - 1 - 1 = i - 28 := by omega
        have : ¬ (i - 8 < 16) := by omega
        have : ¬ (i - 8 - 16 < 2) := by omega
        have : ¬ (i - 8 - 16 - 2 < 1) := by omega
        have : ¬ (i - 8 - 16 - 2 - 1 < 1) := by omega
        have h26 : ¬ i < 26 := by omega
        have h24 : ¬ i < 24 := by omega
        have h8 : ¬ i < 8 := by omega
        have : i ≠ 26 := by omega
        have : i ≠ 27 := by omega
        simp [*]

@[simp] theorem opField_headerOf : opField (headerOf op f d x low) = op := by
  unfold opField
  refine BitVec.eq_of_getLsbD_eq fun i hi => ?_
  rw [BitVec.getLsbD_extractLsb', headerOf_getLsbD]
  interval_cases i <;> simp

@[simp] theorem fField_headerOf : fField (headerOf op f d x low) = f := by
  unfold fField; rw [headerOf_getLsbD]; simp

@[simp] theorem dField_headerOf : dField (headerOf op f d x low) = d := by
  unfold dField; rw [headerOf_getLsbD]; simp

@[simp] theorem xField_headerOf : xField (headerOf op f d x low) = x := by
  unfold xField
  refine BitVec.eq_of_getLsbD_eq fun i hi => ?_
  rw [BitVec.getLsbD_extractLsb', headerOf_getLsbD]
  have h1 : ¬ (8 + i < 8) := by omega
  have h2 : 8 + i < 24 := by omega
  simp [h1, h2, hi]

@[simp] theorem lowField_headerOf : lowField (headerOf op f d x low) = low := by
  unfold lowField
  refine BitVec.eq_of_getLsbD_eq fun i hi => ?_
  rw [BitVec.getLsbD_extractLsb', headerOf_getLsbD]
  simp [hi]

@[simp] theorem rowField_headerOf (row : BitVec 3) : rowField (headerOf op f d (row.setWidth 16) low) = row := by
  unfold rowField
  refine BitVec.eq_of_getLsbD_eq fun i hi => ?_
  rw [BitVec.getLsbD_extractLsb', headerOf_getLsbD]
  have h1 : ¬ (8 + i < 8) := by omega
  have h2 : 8 + i < 24 := by omega
  have h3 : i < 16 := by omega
  simp [h1, h2, hi, h3]

end

/-- Every header is made of its fields and its two reserved bits. -/
theorem headerOf_fields (h : Word) (h25 : h.getLsbD 25 = false) (h24 : h.getLsbD 24 = false) :
    headerOf (opField h) (fField h) (dField h) (xField h) (lowField h) = h := by
  simp only [Nat.reduceLT, BitVec.getLsbD_eq_getElem] at h24 h25
  refine BitVec.eq_of_getLsbD_eq fun i hi => ?_
  rw [headerOf_getLsbD]
  unfold opField fField dField xField lowField
  simp only [BitVec.getLsbD_extractLsb']
  interval_cases i <;> simp [*]

/-- A word's four bytes spell the word (R42). -/
@[simp] theorem wordOfBytes_wordBytes (w : Word) :
    wordOfBytes (w.extractLsb' 24 8) (w.extractLsb' 16 8) (w.extractLsb' 8 8) (w.extractLsb' 0 8) = w := by
  unfold wordOfBytes
  refine BitVec.eq_of_getLsbD_eq fun i hi => ?_
  simp only [BitVec.getLsbD_append, BitVec.getLsbD_extractLsb']
  interval_cases i <;> simp

/-- Four bytes are the bytes of the word they spell (R42). -/
theorem wordBytes_wordOfBytes (b0 b1 b2 b3 : Byte) : wordBytes (wordOfBytes b0 b1 b2 b3) = [b0, b1, b2, b3] := by
  have key : ∀ (n : Nat) (b : Byte), n = 0 ∧ b = b3 ∨ n = 8 ∧ b = b2 ∨ n = 16 ∧ b = b1 ∨ n = 24 ∧ b = b0 →
      (wordOfBytes b0 b1 b2 b3).extractLsb' n 8 = b := by
    intro n b h
    unfold wordOfBytes
    refine BitVec.eq_of_getLsbD_eq fun i hi => ?_
    simp only [BitVec.getLsbD_append, BitVec.getLsbD_extractLsb']
    rcases h with ⟨rfl, rfl⟩ | ⟨rfl, rfl⟩ | ⟨rfl, rfl⟩ | ⟨rfl, rfl⟩ <;> interval_cases i <;> simp
  unfold wordBytes
  rw [key 24 b0 (by simp), key 16 b1 (by simp), key 8 b2 (by simp), key 0 b3 (by simp)]

/-- A packet whose parts fit its header is what its own link bytes frame, whatever follows (R62). -/
theorem frame_packetBytes (p : Packet) (rest : List Byte) (h : partsFit p = true) :
    frame (packetBytes p ++ rest) = some (p, rest) := by
  obtain ⟨h1, h2⟩ : p.interval.isSome = hasInterval p.header ∧ p.payload.length = payloadLength p.header := by
    simpa [partsFit] using h
  obtain ⟨hd, iv, pl⟩ := p
  simp only at h1 h2
  cases iv with
  | none =>
    simp only [Option.isSome_none] at h1
    simp [packetBytes, wordBytes, frame, ← h1, framePayload, ← h2]
  | some w =>
    simp only [Option.isSome_some] at h1
    simp [packetBytes, wordBytes, frame, ← h1, framePayload, ← h2]

/-- The bytes before a framed packet's rest are the packet's own, and its parts fit: framing rests on the header alone, and
BAD_PACKET cannot arise on a byte link (R62, R68). -/
theorem frame_some {bs rest : List Byte} {p : Packet} (h : frame bs = some (p, rest)) :
    bs = packetBytes p ++ rest ∧ partsFit p = true := by
  unfold frame at h
  split at h
  · rename_i b0 b1 b2 b3 t
    split at h
    · rename_i hi
      split at h
      · rename_i c0 c1 c2 c3 u
        unfold framePayload at h
        split at h
        · rename_i hl
          simp only [Option.some.injEq, Prod.mk.injEq] at h
          obtain ⟨rfl, rfl⟩ := h
          simp [packetBytes, wordBytes_wordOfBytes, partsFit, hi, hl]
        · exact absurd h (by simp)
      · exact absurd h (by simp)
    · rename_i hi
      unfold framePayload at h
      split at h
      · rename_i hl
        simp only [Option.some.injEq, Prod.mk.injEq] at h
        obtain ⟨rfl, rfl⟩ := h
        simp [packetBytes, wordBytes_wordOfBytes, partsFit, hi, hl]
      · exact absurd h (by simp)
  · exact absurd h (by simp)

/-! ### Which row selects a header (R65) -/

/-- A row selects only headers of its own opcode. -/
theorem opField_of_selects {r : Row} {h : Word} (hs : r.selects h = true) : opField h = opField r.pattern := by
  have e : h &&& r.mask = r.pattern := by simpa [Row.selects] using hs
  have hm : opField r.mask = BitVec.allOnes 4 := by cases r <;> decide
  rw [← e]
  unfold opField at *
  rw [BitVec.extractLsb'_and, hm, BitVec.and_allOnes]

/-- A row whose opcode is another does not select the header. -/
theorem selects_false {r : Row} {h : Word} (hop : opField h ≠ opField r.pattern) : r.selects h = false := by
  cases hs : r.selects h with
  | false => rfl
  | true => exact absurd (opField_of_selects hs) hop

/-- A row selects a header when every bit its mask covers is as the pattern has it. -/
theorem selects_of_bits {r : Row} {h : Word}
    (hb : ∀ i, i < 32 → r.mask.getLsbD i = true → h.getLsbD i = r.pattern.getLsbD i) : r.selects h = true := by
  have hp : ∀ i, i < 32 → r.mask.getLsbD i = false → r.pattern.getLsbD i = false := by
    cases r <;> decide
  unfold Row.selects
  rw [beq_iff_eq]
  refine BitVec.eq_of_getLsbD_eq fun i hi => ?_
  rw [BitVec.getLsbD_and]
  cases hm : r.mask.getLsbD i with
  | true => rw [Bool.and_true]; exact hb i hi hm
  | false => rw [Bool.and_false]; exact (hp i hi hm).symm

/-- A selected header has the pattern's bits wherever the row's mask is 1. -/
theorem bit_of_selects {r : Row} {h : Word} (hs : r.selects h = true) {i : Nat} (hm : r.mask.getLsbD i = true) :
    h.getLsbD i = r.pattern.getLsbD i := by
  have e : h &&& r.mask = r.pattern := by simpa [Row.selects] using hs
  rw [← e, BitVec.getLsbD_and, hm, Bool.and_true]

/-- A header that a row selects has no reserved opcode (R65, R66). -/
theorem reservedOpcode_of_selects {r : Row} {h : Word} (hs : r.selects h = true) : reservedOpcode h = false := by
  unfold reservedOpcode
  rw [opField_of_selects hs]
  cases r <;> decide

theorem selects_of_selectRow {r : Row} {h : Word} (hs : selectRow h = some r) : r.selects h = true := by
  unfold selectRow at hs
  simpa using List.find?_some hs

/-- What a decoded packet is: a row selects its header, its parts fit, and the command is that row's (R65, R68). -/
theorem decodePacket_ok {p : Packet} {i : Instr} (h : decodePacket p = .ok i) :
    ∃ r : Row, r.selects p.header = true ∧ partsFit p = true ∧ i = r.command p (p.interval.getD 0) := by
  unfold decodePacket at h
  split at h
  · exact absurd h (by simp)
  split at h
  · exact absurd h (by simp)
  rename_i r hr
  split at h
  · rename_i hp
    exact ⟨r, selects_of_selectRow hr, hp, by simpa using h.symm⟩
  · exact absurd h (by simp)

end Sys2Proof
end

