-- ==== Sys2Proof/Laws/PerInstr.lean ====
section
/-! SUPPORT. The family EncodedRow: the header the encoder writes for a command is selected by that command's own row of the
opcode map and by no row before it, and its packet's parts fit (R65, R68). -/

namespace Sys2Proof

/-- The row of the opcode map that a command stands for (R65). -/
def Instr.row : Instr → Row
  | .clear => .clear
  | .setPixel _ _ _ => .setPixel
  | .getPixel _ _ => .getPixel
  | .pixelLength _ _ => .pixelLength
  | .printText _ _ _ => .printText
  | .startTicker _ _ _ => .startTicker
  | .startTickerAt _ _ _ _ => .startTickerAt
  | .pollTicker => .pollTicker
  | .stopTicker => .stopTicker
  | .readFb _ _ => .readFb
  | .readStatus _ => .readStatus

/-- LEN of a text that fits is its length (R63). -/
theorem lenField_toNat {text : List Byte} (h : textFits text = true) : (lenField text).toNat = text.length := by
  have : text.length ≤ 255 := of_decide_eq_true h
  unfold lenField
  rw [BitVec.toNat_ofNat]
  omega

/-- The row of a header made of its fields, when the bits the row fixes are right. -/
theorem selectRow_eq {r : Row} {h : Word} (hs : r.selects h = true)
    (hb : ∀ q ∈ Row.all.takeWhile (fun q => q ≠ r), q.selects h = false) : selectRow h = some r := by
  unfold selectRow
  cases r <;> simp_all [Row.all, List.takeWhile, List.find?]

namespace Laws.EncodedRow

/-- The command's packet is selected by its row, and its parts fit its header. -/
def Statement (i : Instr) : Prop :=
  i.wellFormed = true → selectRow (encode i).header = some i.row ∧ partsFit (encode i) = true

theorem clear : Statement .clear := by intro _; decide

theorem pollTicker : Statement .pollTicker := by intro _; decide

theorem stopTicker : Statement .stopTicker := by intro _; decide

theorem setPixel (en : Bool) (x : BitVec 16) (y : BitVec 8) : Statement (.setPixel en x y) := by
  intro _
  refine ⟨selectRow_eq (selects_of_bits ?_) ?_, ?_⟩
  · intro i hi
    simp only [encode, headerOf_getLsbD, Instr.row, Row.mask, Row.pattern]
    interval_cases i <;> simp
  · intro q hq
    fin_cases hq; exact selects_false (by simp only [encode, opField_headerOf]; decide)
  · simp [encode, partsFit, payloadLength, hasInterval, hasText]

theorem getPixel (x : BitVec 16) (y : BitVec 8) : Statement (.getPixel x y) := by
  intro _
  refine ⟨selectRow_eq (selects_of_bits ?_) ?_, ?_⟩
  · intro i hi
    simp only [encode, headerOf_getLsbD, Instr.row, Row.mask, Row.pattern]
    interval_cases i <;> simp
  · intro q hq
    fin_cases hq <;> exact selects_false (by simp only [encode, opField_headerOf]; decide)
  · simp [encode, partsFit, payloadLength, hasInterval, hasText]

theorem pixelLength (mb : Bool) (text : List Byte) : Statement (.pixelLength mb text) := by
  intro h
  refine ⟨selectRow_eq (selects_of_bits ?_) ?_, ?_⟩
  · intro i hi
    simp only [encode, headerOf_getLsbD, Instr.row, Row.mask, Row.pattern]
    interval_cases i <;> simp
  · intro q hq
    fin_cases hq <;> exact selects_false (by simp only [encode, opField_headerOf]; decide)
  · simp [encode, partsFit, payloadLength, hasInterval, hasText, lenField_toNat h]

theorem printText (mb : Bool) (x : BitVec 16) (text : List Byte) : Statement (.printText mb x text) := by
  intro h
  refine ⟨selectRow_eq (selects_of_bits ?_) ?_, ?_⟩
  · intro i hi
    simp only [encode, headerOf_getLsbD, Instr.row, Row.mask, Row.pattern]
    interval_cases i <;> simp
  · intro q hq
    fin_cases hq <;> exact selects_false (by simp only [encode, opField_headerOf]; decide)
  · simp [encode, partsFit, payloadLength, hasInterval, hasText, lenField_toNat h]

theorem startTicker (mb : Bool) (interval : Word) (text : List Byte) : Statement (.startTicker mb interval text) := by
  intro h
  refine ⟨selectRow_eq (selects_of_bits ?_) ?_, ?_⟩
  · intro i hi
    simp only [encode, headerOf_getLsbD, Instr.row, Row.mask, Row.pattern]
    interval_cases i <;> simp
  · intro q hq
    fin_cases hq <;> exact selects_false (by simp only [encode, opField_headerOf]; decide)
  · simp [encode, partsFit, payloadLength, hasInterval, hasText, lenField_toNat h]

theorem startTickerAt (mb : Bool) (off : BitVec 16) (interval : Word) (text : List Byte) : Statement (.startTickerAt mb off interval text) := by
  intro h
  refine ⟨selectRow_eq (selects_of_bits ?_) ?_, ?_⟩
  · intro i hi
    simp only [encode, headerOf_getLsbD, Instr.row, Row.mask, Row.pattern]
    interval_cases i <;> simp
  · intro q hq
    fin_cases hq
    iterate 5 (· exact selects_false (by simp only [encode, opField_headerOf]; decide))
    rw [Bool.eq_false_iff]
    intro hs
    have h26 := bit_of_selects hs (i := 26) (by decide)
    rw [encode, headerOf_getLsbD] at h26
    exact absurd h26 (by simp [Row.pattern])
  · simp [encode, partsFit, payloadLength, hasInterval, hasText, lenField_toNat h]

theorem readFb (row : BitVec 3) (seg : BitVec 8) : Statement (.readFb row seg) := by
  intro _
  refine ⟨selectRow_eq (selects_of_bits ?_) ?_, ?_⟩
  · intro i hi
    simp only [encode, headerOf_getLsbD, Instr.row, Row.mask, Row.pattern]
    interval_cases i <;> simp
  · intro q hq
    fin_cases hq <;> exact selects_false (by simp only [encode, opField_headerOf]; decide)
  · simp [encode, partsFit, payloadLength, hasInterval, hasText]

theorem readStatus (sel : BitVec 8) : Statement (.readStatus sel) := by
  intro _
  refine ⟨selectRow_eq (selects_of_bits ?_) ?_, ?_⟩
  · intro i hi
    simp only [encode, headerOf_getLsbD, Instr.row, Row.mask, Row.pattern]
    interval_cases i <;> simp
  · intro q hq
    fin_cases hq <;> exact selects_false (by simp only [encode, opField_headerOf]; decide)
  · simp [encode, partsFit, payloadLength, hasInterval, hasText]

end Laws.EncodedRow

end Sys2Proof
end

