-- ==== Sys2Proof/Laws/Step.lean ====
section
/-! SUPPORT. What decoding, one command and one step can do, said once. -/

namespace Sys2Proof.Machine

/-- A decoded command is well formed: its text is the payload, as long as an 8-bit LEN says (R60, R68). -/
theorem decodePacket_wellFormed {p : Packet} {i : Instr} (h : decodePacket p = .ok i) : i.wellFormed = true := by
  unfold decodePacket at h
  split at h
  · exact absurd h (by simp)
  split at h
  · exact absurd h (by simp)
  rename_i r hr
  split at h
  · rename_i hp
    have hl : p.payload.length ≤ 255 := by
      have : p.payload.length = payloadLength p.header := by
        simp only [partsFit, Bool.and_eq_true, beq_iff_eq] at hp; exact hp.2
      rw [this]
      unfold payloadLength
      have := (lowField p.header).isLt
      split <;> omega
    simp only [Except.ok.injEq] at h
    subst h
    cases r <;> simp [Row.command, Instr.wellFormed, textFits, maxText, hl]
  · exact absurd h (by simp)

/-- One command always answers a next state that differs from the one before in FB, TK and one more response only (R7, R163,
R157). -/
theorem exec_next (i : Instr) (s : State) : ∃ m t r, exec i s = .next (((s.setFb m).setTk t).answer r) := by
  cases i with
  | clear => exact ⟨s.fb.clear s.cfg, s.tk, ⟨.ok, 0⟩, rfl⟩
  | setPixel en x y =>
    exact ⟨setPixel s.cfg s.resets s.fb (signedX x) (signedY y) en, s.tk, ⟨.ok, 0⟩, rfl⟩
  | getPixel x y => exact ⟨s.fb, s.tk, _, rfl⟩
  | pixelLength mb text => exact ⟨s.fb, s.tk, _, rfl⟩
  | printText mb x text =>
    exact ⟨(draw s.params s.cfg s.resets (signedX x) (decodeText s.params mb text) s.fb).1, s.tk, ⟨.ok, _⟩, rfl⟩
  | startTicker mb interval text => exact ⟨s.fb, _, _, rfl⟩
  | startTickerAt mb off interval text => exact ⟨s.fb, _, _, rfl⟩
  | pollTicker =>
    simp only [exec, execPollTicker]
    split
    · exact ⟨_, _, _, rfl⟩
    · exact ⟨s.fb, s.tk, _, rfl⟩
  | stopTicker => exact ⟨s.fb, _, _, rfl⟩
  | readFb row seg =>
    simp only [exec, execReadFb]
    split
    · exact ⟨s.fb, s.tk, _, rfl⟩
    · exact ⟨s.fb, s.tk, _, rfl⟩
  | readStatus sel =>
    simp only [exec, execReadStatus]
    split
    · exact ⟨s.fb, s.tk, _, rfl⟩
    · exact ⟨s.fb, s.tk, _, rfl⟩

/-- The frame buffer after a command: unchanged, cleared, one pixel written, a text drawn, or an advance's frame (R26). -/
theorem exec_fb {i : Instr} {s t : State} (h : exec i s = .next t) :
    t.fb = s.fb ∨ i = .clear ∧ t.fb = s.fb.clear s.cfg ∨
    (∃ en x y, i = .setPixel en x y ∧ t.fb = setPixel s.cfg s.resets s.fb (signedX x) (signedY y) en) ∨
    (∃ mb x text, i = .printText mb x text ∧
      t.fb = (draw s.params s.cfg s.resets (signedX x) (decodeText s.params mb text) s.fb).1) ∨
    i = .pollTicker ∧ pollAdvances s = true ∧ t.fb = advanceFb s := by
  cases i with
  | clear => obtain rfl : _ = t := by simpa [exec, execClear] using h
             exact .inr (.inl ⟨rfl, rfl⟩)
  | setPixel en x y => obtain rfl : _ = t := by simpa [exec, execSetPixel] using h
                       exact .inr (.inr (.inl ⟨en, x, y, rfl, rfl⟩))
  | printText mb x text => obtain rfl : _ = t := by simpa [exec, execPrintText] using h
                           exact .inr (.inr (.inr (.inl ⟨mb, x, text, rfl, rfl⟩)))
  | pollTicker =>
    simp only [exec, execPollTicker] at h
    split at h
    · rename_i ha
      obtain rfl : _ = t := by simpa using h
      exact .inr (.inr (.inr (.inr ⟨rfl, ha, rfl⟩)))
    · obtain rfl : _ = t := by simpa using h
      exact .inl rfl
  | getPixel x y => obtain rfl : _ = t := by simpa [exec, execGetPixel] using h
                    exact .inl rfl
  | pixelLength mb text => obtain rfl : _ = t := by simpa [exec, execPixelLength] using h
                           exact .inl rfl
  | startTicker mb interval text => obtain rfl : _ = t := by simpa [exec, execStartTicker] using h
                                    exact .inl rfl
  | startTickerAt mb off interval text => obtain rfl : _ = t := by simpa [exec, execStartTickerAt] using h
                                          exact .inl rfl
  | stopTicker => obtain rfl : _ = t := by simpa [exec, execStopTicker] using h
                  exact .inl rfl
  | readFb row seg =>
    simp only [exec, execReadFb] at h
    split at h <;> (obtain rfl : _ = t := by simpa using h) <;> exact .inl rfl
  | readStatus sel =>
    simp only [exec, execReadStatus] at h
    split at h <;> (obtain rfl : _ = t := by simpa using h) <;> exact .inl rfl

/-- The ticker registers after a command: unchanged, started, advanced, or stopped (R29). -/
theorem exec_tk {i : Instr} {s t : State} (h : exec i s = .next t) :
    t.tk = s.tk ∨
    (∃ mb interval text, i = .startTicker mb interval text ∧
      t.tk = startSession s (decodeText s.params mb text) (wordOfNat (displayWidth s.cfg)) interval) ∨
    (∃ mb off interval text, i = .startTickerAt mb off interval text ∧
      t.tk = startSession s (decodeText s.params mb text) (wordOfInt (signedX off)) interval) ∨
    (i = .pollTicker ∧ pollAdvances s = true ∧ t.tk = advanceTk s) ∨
    i = .stopTicker ∧ t.tk = { s.tk with active := false } := by
  cases i with
  | startTicker mb interval text => obtain rfl : _ = t := by simpa [exec, execStartTicker] using h
                                    exact .inr (.inl ⟨mb, interval, text, rfl, rfl⟩)
  | startTickerAt mb off interval text => obtain rfl : _ = t := by simpa [exec, execStartTickerAt] using h
                                          exact .inr (.inr (.inl ⟨mb, off, interval, text, rfl, rfl⟩))
  | stopTicker => obtain rfl : _ = t := by simpa [exec, execStopTicker] using h
                  exact .inr (.inr (.inr (.inr ⟨rfl, rfl⟩)))
  | pollTicker =>
    simp only [exec, execPollTicker] at h
    split at h
    · rename_i ha
      obtain rfl : _ = t := by simpa using h
      exact .inr (.inr (.inr (.inl ⟨rfl, ha, rfl⟩)))
    · obtain rfl : _ = t := by simpa using h
      exact .inl rfl
  | clear => obtain rfl : _ = t := by simpa [exec, execClear] using h
             exact .inl rfl
  | setPixel en x y => obtain rfl : _ = t := by simpa [exec, execSetPixel] using h
                       exact .inl rfl
  | printText mb x text => obtain rfl : _ = t := by simpa [exec, execPrintText] using h
                           exact .inl rfl
  | getPixel x y => obtain rfl : _ = t := by simpa [exec, execGetPixel] using h
                    exact .inl rfl
  | pixelLength mb text => obtain rfl : _ = t := by simpa [exec, execPixelLength] using h
                           exact .inl rfl
  | readFb row seg =>
    simp only [exec, execReadFb] at h
    split at h <;> (obtain rfl : _ = t := by simpa using h) <;> exact .inl rfl
  | readStatus sel =>
    simp only [exec, execReadStatus] at h
    split at h <;> (obtain rfl : _ = t := by simpa using h) <;> exact .inl rfl

/-- One command gives one response, whose value on an error is 0 (R7, R61). -/
theorem exec_responds (i : Instr) (s : State) :
    ∃ t r, exec i s = .next t ∧ t.responses = s.responses ++ [r] ∧ (r.status ≠ .ok → r.value = 0) := by
  cases i with
  | pollTicker =>
    simp only [exec, execPollTicker]
    split <;> exact ⟨_, _, rfl, rfl, fun h => absurd rfl h⟩
  | readFb row seg =>
    simp only [exec, execReadFb]
    split
    · exact ⟨_, _, rfl, rfl, fun _ => rfl⟩
    · exact ⟨_, _, rfl, rfl, fun h => absurd rfl h⟩
  | readStatus sel =>
    simp only [exec, execReadStatus]
    split
    · exact ⟨_, _, rfl, rfl, fun h => absurd rfl h⟩
    · exact ⟨_, _, rfl, rfl, fun _ => rfl⟩
  | _ => exact ⟨_, _, rfl, rfl, fun h => absurd rfl h⟩

/-- The model's Elapsed is the spec's (R131). -/
theorem elapsed_toNat (s : State) : (elapsed s).toNat = elapsedMs s := by
  unfold elapsed elapsedMs
  rw [BitVec.toNat_sub]
  have := s.tk.last.isLt
  have := s.now.isLt
  congr 1
  omega

/-- When a poll advances (R130, R134). -/
theorem pollAdvances_iff (s : State) :
    pollAdvances s = true ↔ s.tk.active = true ∧ s.tk.interval.toNat ≤ elapsedMs s := by
  unfold pollAdvances
  rw [elapsed_toNat]
  simp

/-- A decoded operand X as a 32-bit pattern keeps its value (R17). -/
theorem wordOfInt_signedX (x : BitVec 16) : (wordOfInt (signedX x)).toInt = x.toInt := by
  unfold wordOfInt signedX
  have := BitVec.toInt_lt (x := x)
  have := BitVec.le_toInt (x := x)
  rw [BitVec.toInt_ofInt, Int.bmod_eq_of_le] <;> simp at * <;> omega

/-- A one-bit value as a word. -/
theorem wordOfBool_eq (b : Bool) : wordOfBool b = if b then 1 else 0 := by cases b <;> rfl

/-- The scroll offsets, one at a time (R139). -/
theorem scrollOffset_zero (w l : Nat) (o : Int) : scrollOffset w l o 0 = o := rfl

theorem scrollOffset_succ (w l : Nat) (o : Int) (k : Nat) :
    scrollOffset w l o (k + 1) =
      if scrollOffset w l o k - 1 ≥ -(l : Int) then scrollOffset w l o k - 1 else (w : Int) := rfl

/-- What a step can do: wait, take bytes of the link, run a whole packet, reset, or refuse a reset (R6, R7, R152, R170). -/
theorem step_cases (s : State) :
    (fetch s = .idle ∧ step s = .next s) ∨
    (∃ s', fetch s = .received s' ∧ step s = .next s') ∨
    (∃ p s' i, fetch s = .packet p s' ∧ decodePacket p = .ok i ∧ step s = exec i s') ∨
    (∃ p s' c, fetch s = .packet p s' ∧ decodePacket p = .error c ∧ step s = .next (s'.reject c)) ∨
    (∃ pins s', fetch s = .reset pins s' ∧ pins.n ≠ 0 ∧ step s = .next (s'.latch pins)) ∨
    ∃ pins s', fetch s = .reset pins s' ∧ pins.n = 0 ∧ step s = .refused .invalidConfiguration := by
  unfold step
  cases hf : fetch s with
  | idle => exact .inl ⟨rfl, rfl⟩
  | received s' => exact .inr (.inl ⟨s', rfl, rfl⟩)
  | packet p s' =>
    simp only [runPacket]
    cases hd : decodePacket p with
    | ok i => exact .inr (.inr (.inl ⟨p, s', i, rfl, hd, rfl⟩))
    | error c => exact .inr (.inr (.inr (.inl ⟨p, s', c, rfl, hd, rfl⟩)))
  | reset pins s' =>
    by_cases hn : pins.n = 0
    · exact .inr (.inr (.inr (.inr (.inr ⟨pins, s', rfl, hn, if_pos hn⟩))))
    · exact .inr (.inr (.inr (.inr (.inl ⟨pins, s', rfl, hn, if_neg hn⟩))))

/-- Taking a packet, bytes or a reset changes no state of the block: only the host's side and the sample of NOW (R153). -/
theorem fetch_frame {s s' : State}
    (h : (∃ p, fetch s = .packet p s') ∨ fetch s = .received s' ∨ ∃ pins, fetch s = .reset pins s') :
    s'.params = s.params ∧ s'.cfg = s.cfg ∧ s'.fb = s.fb ∧ s'.tk = s.tk ∧ s'.responses = s.responses ∧
      s'.resets = s.resets := by
  unfold fetch at h
  cases hf : frame s.rx with
  | some pr =>
    rw [hf] at h
    rcases h with ⟨p, h⟩ | h | ⟨pins, h⟩ <;> cases h
    exact ⟨rfl, rfl, rfl, rfl, rfl, rfl⟩
  | none =>
    rw [hf] at h
    simp only [takeInput] at h
    cases hp : s.pending with
    | nil => rw [hp] at h; rcases h with ⟨p, h⟩ | h | ⟨pins, h⟩ <;> cases h
    | cons a t =>
      rw [hp] at h
      cases a <;> rcases h with ⟨p, h⟩ | h | ⟨pins, h⟩ <;> cases h <;> exact ⟨rfl, rfl, rfl, rfl, rfl, rfl⟩

end Sys2Proof.Machine
end

