-- ==== Sys2Proof/Tests/Slice0.lean ====
section
/-! SUPPORT. The model's own tests, each expected result from the spec (the rule or vector is named), and for every statement
that has hypotheses a concrete state and operands that meet them. -/

namespace Sys2Proof.Tests

open Sys2Proof Sys2Proof.Machine

set_option Elab.async false

/-! ### Test states -/

/-- A legal glyph ROM for tests: the two glyphs of R101, every other blank and one column wide. -/
def testRom : Vector Glyph nGlyph :=
  Vector.ofFn fun g =>
    if g = 33 then glyphA else if g = 98 then glyphSmallAUmlaut else ⟨#v[0, 0, 0, 0, 0, 0, 0, 0], 1⟩

def testParams : Params := { Params.default with rom := testRom }

/-- A block with the configuration `pins`, the frame buffer's bytes given, and an old session that was stopped. -/
def block (pins : Cfg) (fb : List Byte) : State :=
  { State.afterReset testParams pins 0 with
    fb := fb.zipIdx.map fun e => (e.2, e.1)
    tk := ⟨false, 3, 7, 20, 400, 1, [33]⟩ }

def oneModule : Cfg := ⟨1, false, false, false⟩
def twoModules : Cfg := ⟨2, false, false, false⟩
def twoMirrored : Cfg := ⟨2, true, true, true⟩

/-- One module, blank. -/
def blank1 : State := block oneModule (List.replicate 8 0)

/-- Two modules, blank. -/
def blank2 : State := block twoModules (List.replicate 16 0)

/-- The frame of "A" at x = 0 (R125). -/
def frameA : List Byte := [0x20, 0x50, 0x88, 0x88, 0xF8, 0x88, 0x88, 0x00]

/-- The session of vector T1 (START "A", 100 at NOW = 1000) at another offset. -/
def session (offset : Word) : Ticker := ⟨true, offset, 7, 100, 1000, 1, [33]⟩

/-- One module lit all over, with the session of T1 at an offset, at a time. -/
def ticking (offset now : Word) : State :=
  { block oneModule (List.replicate 8 0xFF) with tk := session offset, now := now }

/-- The bytes FB shows. -/
def shown (s : State) : List Byte := (List.range (fbSize s.cfg)).map s.byte

/-- What a command shows: FB's bytes and the responses. -/
def ran (i : Instr) (s : State) : Option (List Byte × List Response) :=
  match exec i s with
  | .next t => some (shown t, t.responses)
  | _ => none

/-- The ticker after a command. -/
def ticked (i : Instr) (s : State) : Option Ticker :=
  match exec i s with
  | .next t => some t.tk
  | _ => none

/-- The state a step answers. -/
def stepped (s : State) : Option State :=
  match step s with
  | .next t => some t
  | _ => none

/-! ### Well-formedness: a text of 256 bytes fits no packet (R60) -/

def longText : List Byte := List.replicate 256 0x41

theorem test_wf_pixelLength_refused : (Instr.pixelLength true longText).wellFormed = false := by decide +kernel
theorem test_wf_printText_refused : (Instr.printText true 0 longText).wellFormed = false := by decide +kernel
theorem test_wf_startTicker_refused : (Instr.startTicker true 0 longText).wellFormed = false := by decide +kernel
theorem test_wf_startTickerAt_refused : (Instr.startTickerAt true 0 0 longText).wellFormed = false := by decide +kernel
theorem test_wf_255_accepted : (Instr.printText true 0 (longText.take 255)).wellFormed = true := by decide +kernel

/-! ### Decoding: words written out from the formats of R64 and the opcodes of R65 -/

theorem test_decode_clear : decodePacket ⟨0b0001_0000_0000_0000_0000_0000_0000_0000, none, []⟩ = .ok .clear := by
  decide

/-- x = 9, y = -2. -/
theorem test_decode_setPixel :
    decodePacket ⟨0b0010_1000_0000_0000_0000_1001_1111_1110, none, []⟩ = .ok (.setPixel true 9 0xFE) := by decide

theorem test_decode_getPixel :
    decodePacket ⟨0b0011_0000_1111_1111_1111_1110_0000_0011, none, []⟩ = .ok (.getPixel 0xFFFE 3) := by decide

theorem test_decode_pixelLength :
    decodePacket ⟨0b0100_0000_0000_0000_0000_0000_0000_0010, none, [0xC3, 0xA4]⟩ = .ok (.pixelLength false [0xC3, 0xA4]) := by
  decide

theorem test_decode_printText :
    decodePacket ⟨0b0101_1000_0000_0001_0000_0010_0000_0001, none, [0x41]⟩ = .ok (.printText true 0x102 [0x41]) := by
  decide

theorem test_decode_startTicker :
    decodePacket ⟨0b0110_1000_0000_0000_0000_0000_0000_0001, some 100, [0x41]⟩ = .ok (.startTicker true 100 [0x41]) := by
  decide

theorem test_decode_startTickerAt :
    decodePacket ⟨0b0110_0100_1111_1111_1110_1100_0000_0000, some 5, []⟩ = .ok (.startTickerAt false 0xFFEC 5 []) := by
  decide

theorem test_decode_pollTicker :
    decodePacket ⟨0b0111_0000_0000_0000_0000_0000_0000_0000, none, []⟩ = .ok .pollTicker := by decide

theorem test_decode_stopTicker :
    decodePacket ⟨0b1000_0000_0000_0000_0000_0000_0000_0000, none, []⟩ = .ok .stopTicker := by decide

theorem test_decode_readFb :
    decodePacket ⟨0b1001_0000_0000_0000_0000_0101_0000_1001, none, []⟩ = .ok (.readFb 5 9) := by decide

theorem test_decode_readStatus :
    decodePacket ⟨0b1010_0000_0000_0000_0000_0000_0000_0110, none, []⟩ = .ok (.readStatus 6) := by decide

/-- 95_test_vectors.md 2.8: the bytes of `TSTART "A", 100`, with a byte of the next packet behind them (R42, R62). -/
theorem test_decode_bytes :
    decodeBytes [0x68, 0, 0, 1, 0, 0, 0, 100, 0x41, 0x70] = .command (.startTicker true 100 [0x41]) [0x70] := by decide

/-- A reserved opcode is skipped as four bytes, its low byte no length (95_test_vectors.md 2.8). -/
theorem test_decode_bytes_reserved : decodeBytes [0xC0, 0, 0, 5, 0x41] = .rejected .illegalOpcode [0x41] := by decide

/-- Each header decoded alone is rejected for the cause that 95_test_vectors.md 2.7 gives. -/
theorem test_rejected_headers :
    [0x00000000, 0xB0000000, 0xF8FFFFFF].all (fun h => decodePacket ⟨h, none, []⟩ = .error .illegalOpcode) = true ∧
    [0x11000000, 0x70000001, 0x24000000, 0x38000000, 0x48000100, 0x90100001, 0x90000800, 0xA0000100].all
      (fun h => decodePacket ⟨h, none, []⟩ = .error .reservedField) = true ∧
    [0x68000101, 0x6A000001].all (fun h => decodePacket ⟨h, some 0, [0x41]⟩ = .error .reservedField) = true := by
  decide

/-- 95_test_vectors.md 2.7: packets handed over as records whose parts do not fit. -/
theorem test_rejected_parts :
    decodePacket ⟨0x10000000, none, [0]⟩ = .error .badPacket ∧
    decodePacket ⟨0x68000001, none, [0x41]⟩ = .error .badPacket ∧
    decodePacket ⟨0x48000002, none, [0x41]⟩ = .error .badPacket ∧
    decodePacket ⟨0x18000000, none, [0]⟩ = .error .reservedField := by
  decide

/-- The opcode table's numbering: a header alone, and a header with its interval word. -/
theorem test_table_word :
    decodeTableWord 32 0x28FFFF00 = some (.setPixel true 0xFFFF 0) ∧
    decodeTableWord 64 0x00000064_6C000800 = some (.startTickerAt true 8 100 []) ∧
    decodeTableWord 32 0xB0000000 = none := by
  decide

/-! ### One command each -/

/-- P-1. -/
theorem test_clear : ran .clear (block twoModules (List.replicate 16 0xFF)) = some (List.replicate 16 0, [⟨.ok, 0⟩]) := by
  decide +kernel

/-- P1, step 3: N = 2 with every mirror. -/
theorem test_setPixel_mirrored :
    ran (.setPixel true 9 2) (block twoMirrored (List.replicate 16 0)) =
      some ([0, 0, 0, 0, 0, 0, 0, 0, 0, 0, 2, 0, 0, 0, 0, 0], [⟨.ok, 0⟩]) := by
  decide +kernel

/-- P-3: only the selected bit is cleared. -/
theorem test_setPixel_clears :
    ran (.setPixel false 7 0) (block oneModule [0x81, 0, 0, 0, 0, 0, 0, 0]) =
      some ([0x80, 0, 0, 0, 0, 0, 0, 0], [⟨.ok, 0⟩]) := by
  decide +kernel

/-- P-9 and P-10. -/
theorem test_getPixel :
    ran (.getPixel 0 0) (block oneModule [0x80, 0, 0, 0, 0, 0, 0, 0]) = some ([0x80, 0, 0, 0, 0, 0, 0, 0], [⟨.ok, 1⟩]) ∧
    ran (.getPixel 1 0) (block oneModule [0x80, 0, 0, 0, 0, 0, 0, 0]) = some ([0x80, 0, 0, 0, 0, 0, 0, 0], [⟨.ok, 0⟩]) := by
  decide +kernel

/-- P-14: the physical byte of the last row and segment. -/
theorem test_readFb :
    (ran (.readFb 7 1) (block twoModules (List.range 16 |>.map (BitVec.ofNat 8)))).map Prod.snd = some [⟨.ok, 15⟩] := by
  decide +kernel

/-- P-13. -/
theorem test_readFb_range : ran (.readFb 0 1) blank1 = some (List.replicate 8 0, [⟨.error .range, 0⟩]) := by decide +kernel

/-- 2.4: `PLEN "A\xC3\xA4"` with mb = 1 and mb = 0. -/
theorem test_pixelLength :
    (ran (.pixelLength true [0x41, 0xC3, 0xA4]) blank1).map Prod.snd = some [⟨.ok, 14⟩] ∧
    (ran (.pixelLength false [0x41, 0xC3, 0xA4]) blank1).map Prod.snd = some [⟨.ok, 7⟩] := by
  decide +kernel

/-- 2.4: "A" at x = 5 on two segments. -/
theorem test_printText_straddles :
    ran (.printText true 5 [0x41]) blank2 =
      some ([0x01, 0, 0x02, 0x80, 0x04, 0x40, 0x04, 0x40, 0x07, 0xC0, 0x04, 0x40, 0x04, 0x40, 0, 0], [⟨.ok, 6⟩]) := by
  decide +kernel

/-- 2.4: `PRINT 0, "A"` with every mirror. -/
theorem test_printText_mirrored :
    ran (.printText true 0 [0x41]) (block twoMirrored (List.replicate 16 0)) =
      some ([0, 0, 0, 0x11, 0, 0x11, 0, 0x1F, 0, 0x11, 0, 0x11, 0, 0x0A, 0, 0x04], [⟨.ok, 6⟩]) := by
  decide +kernel

/-- T1. -/
theorem test_startTicker :
    ticked (.startTicker true 100 [0x41]) { blank1 with now := 1000 } = some (session 8) := by
  decide +kernel

/-- T8: an explicit offset below -TK.LEN. -/
theorem test_startTickerAt :
    (ticked (.startTickerAt true 0xFFEC 100 [0x41]) { blank1 with now := 1000 }).map (fun t => t.offset.toInt) =
      some (-20) := by
  decide +kernel

/-- T2: the poll at 1200 draws at offset 7. -/
theorem test_pollTicker :
    ran .pollTicker (ticking 7 1200) = some ([0, 0, 1, 1, 1, 1, 1, 0], [⟨.ok, 1⟩]) ∧
    (ticked .pollTicker (ticking 7 1200)).map (fun t => (t.offset, t.last)) = some (6, 1200) := by
  decide +kernel

/-- T3: the advance drawn at -7 restarts the offset at 8; T5: Elapsed wraps. -/
theorem test_pollTicker_restart_and_wrap :
    (ticked .pollTicker (ticking (-7) 1100)).map (fun t => t.offset) = some 8 ∧
    (ran .pollTicker { ticking 8 0x10 with tk := { session 8 with last := 0xFFFFFFF0, interval := 0x20 } }).map Prod.snd =
      some [⟨.ok, 1⟩] ∧
    (ran .pollTicker { ticking 8 0x0F with tk := { session 8 with last := 0xFFFFFFF0, interval := 0x20 } }).map Prod.snd =
      some [⟨.ok, 0⟩] := by
  decide +kernel

/-- R137: only TK.ACTIVE changes. -/
theorem test_stopTicker : ticked .stopTicker (ticking 5 1100) = some { session 5 with active := false } := by decide +kernel

/-- 2.6: an offset of -1, and CFG with N = 2 and every flag. -/
theorem test_readStatus :
    (ran (.readStatus 1) (ticking (-1) 0)).map Prod.snd = some [⟨.ok, 0xFFFFFFFF⟩] ∧
    (ran (.readStatus 6) (block twoMirrored (List.replicate 16 0))).map Prod.snd = some [⟨.ok, 0x702⟩] := by
  decide +kernel

/-- 2.6: selector 255. -/
theorem test_readStatus_range :
    (ran (.readStatus 255) blank1).map Prod.snd = some [⟨.error .range, 0⟩] := by decide +kernel

/-- R110: C3 C3 A4 under the two policies (2.3). -/
theorem test_decoder_fallback :
    decodeText Params.default true [0xC3, 0xC3, 0xA4] = [98] ∧
    decodeText { Params.default with mbFallback := .dropPair } true [0xC3, 0xC3, 0xA4] = [] := by
  decide

/-- 2.8: the response bytes of `RDST 1` with TK.OFFSET = -1, and of a reserved opcode. -/
theorem test_response_bytes :
    (Response.mk .ok 0xFFFFFFFF).bytes = [0, 0xFF, 0xFF, 0xFF, 0xFF] ∧
    (Response.mk (.error .illegalOpcode) 0).bytes = [1, 0, 0, 0, 0] := by
  decide

/-- R170: a reset input latches the four inputs; one with cfg_n = 0 is refused. -/
theorem test_reset_input :
    (stepped { ticking 5 0 with pending := [.reset twoMirrored] }).map (fun t => (t.cfg, t.tk.active, t.fb)) =
      some (twoMirrored, false, []) ∧
    stepped { ticking 5 0 with pending := [.reset ⟨0, false, false, false⟩] } = none := by
  decide +kernel

/-- The first step after reset runs the word placed. -/
theorem test_withFetchWord :
    (stepped (State.reset.withFetchWord 32 0x10000000)).map (fun t => (shown t, t.responses)) =
      some (List.replicate 8 0, [⟨.ok, 0⟩]) := by
  decide +kernel

/-- R70: `PRINT -2, "A" ; x`, by its characters (34 is the quote). -/
theorem test_assembleLine :
    assembleLine ['P', 'R', 'I', 'N', 'T', ' ', '-', '2', ',', Char.ofNat 34, 'A', Char.ofNat 34, ' ', ';', 'x'] =
      .packet ⟨0x58FFFE01, none, [0x41]⟩ := by
  decide +kernel

/-- R70: each side of the operand limits, and `mb` left out. -/
theorem test_assembler_limits :
    assemble (.setpx 32767 (-128) 1) = some (.setPixel true 0x7FFF 0x80) ∧ assemble (.setpx 32768 0 1) = none ∧
    assemble (.setpx 0 0 2) = none ∧ assemble (.print (-32768) [] none) = some (.printText true 0x8000 []) ∧
    assemble (.rdfb 8 0) = none ∧ assemble (.tstart [] (2 ^ 32) none none) = none := by
  decide

/-- R70: how the numbers -12 and 0x1F, and the pieces of a string, are written and what they are. -/
theorem test_written_forms :
    (Numeral.dec true 1 [2]).chars = ['-', '1', '2'] ∧ (Numeral.dec true 1 [2]).value = -12 ∧
    (Numeral.hex (false, 1) [(true, 15)]).chars = ['0', 'x', '1', 'F'] ∧
    (Numeral.hex (false, 1) [(true, 15)]).value = 31 ∧
    (TextPiece.raw (true, 12) (false, 3)).chars = [Char.ofNat 92, 'x', 'C', '3'] ∧
    textBytes [.raw (true, 12) (false, 3), .quote, .backslash] = [0xC3, 0x22, 0x5C] ∧
    lineChars "RDFB".toList [.int (.dec false 3 []), .int (.dec false 1 [])] (some ['x']) =
      "RDFB 3, 1 ;x".toList := by
  decide

/-! ### Witnesses: for each statement with hypotheses, a state and operands that meet them, clause by clause -/

theorem witness_wellFormed : (Instr.startTickerAt true 0xFFEC 100 (longText.take 255)).wellFormed = true := by
  decide +kernel

theorem witness_EncodeOfDecodeIsThePacket :
    decodePacket ⟨0x6CFFEC01, some 100, [0x41]⟩ = .ok (.startTickerAt true 0xFFEC 100 [0x41]) := by decide

/-- The last byte of the packet is there, or still missing; and less than a header. -/
theorem witness_LinkLengthFromHeaderAlone :
    (let h := wordOfBytes 0x68 0 0 1
     opField h = 0x6 ∧ 4 + 4 + (lowField h).toNat = 4 + [0, 0, 0, 100, (0x41 : Byte)].length ∧
      4 + [0, 0, 0, (100 : Byte)].length < 4 + 4 + (lowField h).toNat) ∧
    [0x68, 0, (0 : Byte)].length < 4 := by decide

theorem witness_ReservedFieldExactlyInTheListedCases :
    (¬ opcodeReserved 0x67000001 ∧ reservedBitSet 0x67000001) ∧
    (¬ opcodeReserved 0x64FFFF01 ∧ ¬ reservedBitSet 0x64FFFF01 ∧ Row.startTickerAt.selects 0x64FFFF01 = true) ∧
    opcodeReserved 0xB0000000 := by decide

theorem witness_DecodeChecksInPriorityOrder :
    opcodeReserved 0x00000000 ∧
    (¬ opcodeReserved 0x18000000 ∧ reservedBitSet 0x18000000) := by decide

theorem witness_DecodeChecksInPriorityOrder_parts :
    (¬ opcodeReserved 0x48000002 ∧ ¬ reservedBitSet 0x48000002 ∧
      [Packet.mk 0x48000002 none [0x41]].all (fun p => decide (partsMisfit p)) = true) ∧
    (¬ opcodeReserved 0x48000001 ∧ ¬ reservedBitSet 0x48000001 ∧
      [Packet.mk 0x48000001 none [0x41]].all (fun p => decide (¬ partsMisfit p)) = true) := by decide +kernel

theorem witness_DecodeChecksInPriorityOrder_runPacket :
    decodePacket ⟨0x18000000, none, [0]⟩ = .error .reservedField ∧
    (decodePacket ⟨0x90000001, none, []⟩ = .ok (.readFb 0 1) ∧ blank1.cfg.n.toNat ≤ (1 : BitVec 8).toNat) ∧
    (decodePacket ⟨0xA0000007, none, []⟩ = .ok (.readStatus 7) ∧ 6 < (7 : BitVec 8).toNat) ∧
    decodePacket ⟨0x10000000, none, []⟩ = .ok .clear := by decide +kernel

theorem witness_BadPacketExactlyWhenPartsMisfit :
    [Packet.mk 0x68000000 none [], ⟨0x10000000, some 0, []⟩, ⟨0x48000000, none, [0]⟩, ⟨0x10000000, none, [0]⟩].all
      (fun p => decide (partsMisfit p)) = true ∧
    frame [0x10, 0, 0, 0, 0x41] = some (⟨0x10000000, none, []⟩, [0x41]) := by decide

theorem witness_RejectedPacketChangesNothing :
    (fetch { ticking 5 0 with pending := [.record 9 ⟨0x11000000, none, []⟩] } =
        .packet ⟨0x11000000, none, []⟩ { ticking 5 0 with now := 9 } ∧
      decodePacket ⟨0x11000000, none, []⟩ = .error .reservedField) ∧
    ran (.readFb 0 1) blank1 = some (List.replicate 8 0, [⟨.error .range, 0⟩]) := by decide +kernel

theorem witness_AssembledCommandsDecode :
    assemble (.tstartAt [0x41] (2 ^ 32 - 1) (-32768) (some 0)) = some (.startTickerAt false 0x8000 0xFFFFFFFF [0x41]) := by
  decide

/-- The corners of the display: in range at the last pixel, out of range next to it (N = 255). -/
theorem witness_transform :
    transform ⟨255, false, false, false⟩ 2039 7 = some (2039, 1) ∧ transform ⟨255, false, false, false⟩ 2040 7 = none ∧
    inDisplay ⟨255, true, true, true⟩ 2039 7 ∧ inDisplay ⟨255, true, true, true⟩ 0 0 ∧
    transform ⟨255, true, true, true⟩ 2039 7 = transform ⟨255, true, true, true⟩ 2039 7 ∧
    2039 < fbSize ⟨255, true, true, true⟩ ∧
    transform ⟨2, true, true, true⟩ 9 2 = some (10, (1 : Byte) <<< 1) := by decide +kernel

theorem witness_pixelOperands :
    transform blank1.cfg (7 : BitVec 16).toInt (7 : BitVec 8).toInt = some (7, 1) ∧
    transform blank1.cfg (8 : BitVec 16).toInt (0 : BitVec 8).toInt = none ∧
    transform blank1.cfg (0xFFFF : BitVec 16).toInt (0 : BitVec 8).toInt = none := by decide +kernel

theorem witness_PixelUnitLaws :
    inDisplay twoMirrored (15 : BitVec 16).toInt (7 : BitVec 8).toInt ∧
    inDisplay twoMirrored (0 : BitVec 16).toInt (7 : BitVec 8).toInt ∧ ((0 : BitVec 16), (7 : BitVec 8)) ≠ (15, 7) ∧
    ¬ inDisplay twoMirrored (16 : BitVec 16).toInt (0 : BitVec 8).toInt := by decide

theorem witness_ReadFbRespondsThePhysicalByte :
    (1 : BitVec 8).toNat < blank2.cfg.n.toNat ∧ blank2.cfg.n.toNat ≤ (2 : BitVec 8).toNat := by decide +kernel

theorem witness_FlushReadsTheFrameInOrder : (List.replicate 8 (5 : Word)).length = 8 * blank1.cfg.n.toNat := by
  decide +kernel

/-- Every command of the statement runs to a next state; a poll before its time does not advance. -/
theorem witness_ReadsPureAndWritesIdempotent :
    [Instr.getPixel 0 0, .readFb 0 0, .pixelLength true [0x41], .readStatus 1, .pollTicker, .clear, .setPixel true 0 0,
      .printText true 0 [0x41], .stopTicker, .startTicker true 5 [0x41], .startTickerAt true 3 5 [0x41]].all
        (fun i => (ran i (ticking 5 1050)).isSome) = true ∧
    pollAdvances (ticking 5 1050) = false := by decide +kernel

theorem testParams_pairs : ∀ a b : Symbol, testParams.mbPairs.get a = testParams.mbPairs.get b → a = b := by
  intro a b
  cases a <;> cases b <;> decide

/-- Each clause: a pair; a lead whose next byte makes no pair, under DROP_PAIR and under REDECODE; a byte of no pair; the ends
of the glyphs' range. -/
theorem witness_DecoderLoopStep :
    testParams.mbPairs.get .smallA = (0xC3, 0xA4) ∧
    (∀ y, testParams.mbPairs.get y ≠ (0xC3, 0x41)) ∧ (∃ y, (testParams.mbPairs.get y).1 = 0xC3) ∧
    ({ testParams with mbFallback := .dropPair } : Params).mbFallback = .dropPair ∧ testParams.mbFallback = .redecode ∧
    (∀ y, (testParams.mbPairs.get y).1 ≠ 0x41) ∧
    (32 ≤ (0x20 : Byte).toNat ∧ (0x20 : Byte).toNat ≤ 134 ∧ (0 : GlyphIndex).val = (0x20 : Byte).toNat - 32) ∧
    (32 ≤ (0x86 : Byte).toNat ∧ (0x86 : Byte).toNat ≤ 134 ∧ (102 : GlyphIndex).val = (0x86 : Byte).toNat - 32) ∧
    (0x1F : Byte).toNat < 32 ∧ 134 < (0x87 : Byte).toNat :=
  ⟨by decide, by intro y; cases y <;> decide, ⟨.capA, by decide⟩, rfl, rfl, by intro y; cases y <;> decide,
    by decide +kernel⟩

theorem testParams_legal : testParams.legal = true := by decide +kernel

/-- The hypotheses of the statements about texts: a text of 255 bytes, on legal parameters. -/
theorem witness_texts :
    textFits (longText.take 255) = true ∧ blank1.params.legal = true ∧ blank1.params.drawColumns = .width := by
  decide +kernel

theorem witness_PrintText :
    8 * blank1.cfg.n.toNat ≤ 8 ∧ inDisplay blank1.cfg 7 ((7 : Fin 8).val : Int) := by decide +kernel

/-- Each clause of the Draw laws: outside the footprint, a glyph inside a text, the two ways off the display, the empty text,
and one glyph on one module, moved by 0, 7, -1 and -7. -/
theorem witness_DrawLawsUnderWidth :
    (inDisplay blank2.cfg 12 7 ∧
      ¬ ((0 : BitVec 16).toInt ≤ 12 ∧ (12 : Int) < (0 : BitVec 16).toInt + (([33, 98].map (widthOf testParams)).sum : Nat))) ∧
    (decodeText testParams true [0x41, 0xC3, 0xA4] = [33] ++ 98 :: [] ∧ 5 < widthOf testParams 98 ∧
      (0 : Int) ≤ (0 : BitVec 16).toInt + (([33].map (widthOf testParams)).sum : Nat) + (5 : Nat) ∧
      (0 : BitVec 16).toInt + (([33].map (widthOf testParams)).sum : Nat) + (5 : Nat) < 8 * (blank2.cfg.n.toNat : Int)) ∧
    (8 : BitVec 16).toInt ≥ 8 * (blank1.cfg.n.toNat : Int) ∧
    (0xFFFA : BitVec 16).toInt + (([33].map (widthOf testParams)).sum : Nat) ≤ 0 ∧
    decodeText testParams true [] = [] ∧
    (decodeText testParams true [0x41] = [33] ∧ blank1.cfg = ⟨1, false, false, false⟩) ∧
    (0 : BitVec 16).toInt = (0 : Nat) ∧ (7 : BitVec 16).toInt = (7 : Nat) ∧
    (0xFFFF : BitVec 16).toInt = -((1 : Nat) : Int) ∧ (0xFFF9 : BitVec 16).toInt = -((7 : Nat) : Int) := by
  decide +kernel

/-- A block with an ACTIVE session meets the invariant. -/
theorem ticking_inv (offset now : Word) (h : -32768 ≤ offset.toInt ∧ offset.toInt ≤ 32767) : (ticking offset now).Inv where
  paramsLegal := testParams_legal
  segments := show oneModule.n ≠ 0 by decide
  fbCanonical := show Memory.wf (ticking 0 0).fb = true by decide
  fbBounded := show ∀ c ∈ (ticking 0 0).fb, c.1 < fbSize oneModule by decide
  glyphCount := rfl
  sessionLength := fun _ => show (7 : Word).toNat = measureText testParams [33] by decide +kernel
  sessionOffset := fun _ => h

theorem witness_PollThatWaitsChangesNothing :
    blank1.tk.active = false ∧ elapsedMs (ticking 8 1099) < (ticking 8 1099).tk.interval.toNat := by decide +kernel

/-- Elapsed equal to the interval. -/
theorem witness_PollThatIsDueAdvances :
    (ticking 8 1100).Inv ∧ (ticking 8 1100).tk.active = true ∧
    (ticking 8 1100).tk.interval.toNat ≤ elapsedMs (ticking 8 1100) ∧
    inDisplay (ticking 8 1100).cfg 7 ((0 : Fin 8).val : Int) :=
  ⟨ticking_inv 8 1100 (by decide), by decide +kernel⟩

theorem witness_ReadStatus : 6 < (7 : BitVec 8).toNat := by decide

/-- Three due polls in a row, past the restart. -/
theorem witness_ScrollOffsetsAndPeriod :
    (ticking (-6) 1000).Inv ∧ (ticking (-6) 1000).tk.active = true ∧
    (match runPolls [1100, 1200, 1300] (ticking (-6) 1000) with
      | .next u => decide (u.responses = List.replicate 3 ⟨.ok, 1⟩ ∧ u.tk.offset = 7)
      | _ => false) = true ∧
    (-(7 : Nat) : Int) ≤ 8 ∧ ((15 : Nat) : Int) ≤ 8 + (7 : Nat) ∧ (-20 : Int) < -((7 : Nat) : Int) ∧
    scrollOffset 8 7 (-7) 1 = 8 :=
  ⟨ticking_inv (-6) 1000 (by decide), by decide +kernel⟩

/-- Right of the display, and where the last column has left it. -/
theorem witness_OffscreenFramesAreBlank :
    (ticking 8 1100).Inv ∧ (ticking (-6) 1100).Inv ∧ testParams.drawColumns = .width ∧
    (ticking (-6) 1100).tk.interval.toNat ≤ elapsedMs (ticking (-6) 1100) ∧
    (ticking 8 1100).tk.offset.toInt ≥ 8 * ((ticking 8 1100).cfg.n.toNat : Int) ∧
    (ticking (-6) 1100).tk.offset.toInt ≤
      -(((ticking (-6) 1100).tk.len.toNat : Int) - (ticking (-6) 1100).tk.gcount.toNat) :=
  ⟨ticking_inv 8 1100 (by decide), ticking_inv (-6) 1100 (by decide), by decide +kernel⟩

theorem witness_AdvanceForgetsDirectWrites :
    (ticking 3 1100).tk.active = true ∧ (ticking 3 1100).tk.interval.toNat ≤ elapsedMs (ticking 3 1100) ∧
    0 < 8 * (ticking 3 1100).cfg.n.toNat := by decide +kernel

/-- T7: one millisecond backwards, the interval below and above what Elapsed becomes. -/
theorem witness_TimeGoingBackwardsWrapsElapsed :
    (1 : Word) ≠ 0 ∧ (ticking 8 999).now = (ticking 8 999).tk.last - 1 ∧ (ticking 8 999).tk.active = true ∧
    (ticking 8 999).tk.interval.toNat ≤ 2 ^ 32 - (1 : Word).toNat ∧
    (2 ^ 32 - (2 : Word).toNat < (0xFFFFFFFF : Word).toNat ∧ (998 : Word) = (ticking 8 998).tk.last - 2) := by
  decide +kernel

/-- The invariant holds before a step that runs a command. -/
theorem witness_EveryStepKeepsTheInvariant :
    (ticking 8 1100).Inv ∧
    (stepped { ticking 8 1100 with pending := [.record 1100 ⟨0x70000000, none, []⟩] }).isSome = true :=
  ⟨ticking_inv 8 1100 (by decide), by decide +kernel⟩

theorem witness_packetInputs :
    fetch { blank1 with pending := [.record 5 ⟨0xFFFFFFFF, some 3, [1]⟩] } =
      .packet ⟨0xFFFFFFFF, some 3, [1]⟩ { blank1 with now := 5 } := by decide +kernel

/-- A reset that changes CFG, and one that is refused. -/
theorem witness_resets :
    (stepped { blank1 with pending := [.reset twoMirrored] }).map (fun t => decide (t.cfg ≠ blank1.cfg)) = some true ∧
    fetch { blank1 with pending := [.reset twoMirrored] } = .reset twoMirrored blank1 ∧ twoMirrored.n ≠ 0 ∧
    fetch { blank1 with pending := [.reset ⟨0, true, false, false⟩] } = .reset ⟨0, true, false, false⟩ blank1 := by
  decide +kernel

/-- Each writer of FB changes a byte. -/
theorem witness_OnlyTheWritersChangeFb :
    [Instr.clear, .setPixel false 0 0, .printText true 0 [0x41], .pollTicker].all
      (fun i => ran i (ticking 8 1100) |>.any fun o => o.1 != shown (ticking 8 1100)) = true := by decide +kernel

/-- Each ticker command changes TK: a start from INACTIVE, a stop from ACTIVE, an advance; a start changes TK.GLYPH. -/
theorem witness_OnlyTickerCommandsChangeTk :
    ((ticked (.startTicker true 5 []) (ticking 8 1100)).any fun t => t.glyph != (ticking 8 1100).tk.glyph) = true ∧
    (blank1.tk.active = false ∧ ((ticked (.startTickerAt true 0 5 []) blank1).any fun t => t.active) = true) ∧
    ((ticked .stopTicker (ticking 8 1100)).any fun t => !t.active) = true ∧
    ((ticked .pollTicker (ticking 8 1100)).any fun t => t.offset != 8) = true := by decide +kernel

theorem witness_BuildRefusesInvalidParameters :
    (State.build testParams oneModule).isOk = true ∧ (State.build testParams ⟨0, false, false, false⟩).isOk = false ∧
    (State.build { testParams with accentIndex := { defaultAccentIndex with capA := 94 } } oneModule).isOk = false := by
  decide +kernel

theorem witness_StepRunsTheDecodedCommand :
    decodeBytes [0x10, 0, 0, 0, 0x70] = .command .clear [0x70] ∧
    (frame [0x70, 0, 0] = none ∧ decodePacket ⟨0x70000000, none, []⟩ = .ok .pollTicker) := by decide

theorem witness_BlockWaitsForAWholePacket :
    frame blank1.rx = none ∧ blank1.pending = [] ∧ frame [0x48, 0, 0, 1] = none := by decide +kernel

/-- Two packets queued, each with its NOW, on a block that has received no byte. -/
theorem witness_QueuedPacketsRunInOrder :
    let commands : List (Word × Instr) := [(5, .clear), (6, .printText true 0 [0x41])]
    let s : State := { blank1 with pending := [.record 5 ⟨0x10000000, none, []⟩, .record 6 ⟨0x58000001, none, [0x41]⟩] }
    (commands.all fun c => c.2.wellFormed) = true ∧ s.rx = [] ∧
      s.pending = commands.map fun c => .record c.1 (encode c.2) := by
  decide +kernel

end Sys2Proof.Tests
end

section
/-! PROOFS of the statements about the block's scope (00_scope.md): every packet gets its response and only an invalid reset
is refused (R6, R7, R163), which parameters build a block (R6, R101, R102, R104), and the step as `exec` of the decoded
command (R7, R152). -/

namespace Sys2Proof

/-! ### The parameter checks as the rules write them -/

theorem Symbol.mem_all (y : Symbol) : y ∈ Symbol.all := by cases y <;> decide

/-- A table of the symbols lists no value twice exactly when no two symbols share one. -/
theorem PerSymbol.nodup_iff_injective {α : Type} (t : PerSymbol α) :
    (Symbol.all.map t.get).Nodup ↔ ∀ a b : Symbol, t.get a = t.get b → a = b := by
  rw [List.nodup_map_iff_inj_on (by decide)]
  simp [Symbol.mem_all]

/-- The indices ACCENT_INDEX may use, 95..102 (R104). -/
def accentRange : List GlyphIndex := (List.finRange nGlyph).filter fun g => decide (95 ≤ g.val)

theorem mem_accentRange (g : GlyphIndex) : g ∈ accentRange ↔ 95 ≤ g.val := by simp [accentRange]

/-- Eight distinct indices in a range of eight fill it: the pigeonhole behind R104's bijection. -/
theorem accentRange_subset_of_injective {t : PerSymbol GlyphIndex} (hrange : ∀ y, 95 ≤ (t.get y).val)
    (hnodup : (Symbol.all.map t.get).Nodup) : accentRange ⊆ Symbol.all.map t.get := by
  have hsub : Symbol.all.map t.get ⊆ accentRange := by
    intro g hg
    obtain ⟨y, -, rfl⟩ := List.mem_map.mp hg
    exact (mem_accentRange _).mpr (hrange y)
  have hlen : accentRange.length ≤ (Symbol.all.map t.get).length := by
    rw [List.length_map]
    decide
  exact ((List.subperm_of_subset hnodup hsub).perm_of_length_le hlen).symm.subset

/-- ACCENT_INDEX is legal exactly when it is a bijection onto 95..102 (R104). -/
theorem Params.accentsLegal_iff (p : Params) : p.accentsLegal = true ↔
    (∀ g : GlyphIndex, 95 ≤ g.val ↔ ∃ y : Symbol, p.accentIndex.get y = g) ∧
      ∀ a b : Symbol, p.accentIndex.get a = p.accentIndex.get b → a = b := by
  have hlegal : p.accentsLegal = true ↔
      (∀ y, 95 ≤ (p.accentIndex.get y).val) ∧ (Symbol.all.map p.accentIndex.get).Nodup := by
    simp [Params.accentsLegal, Symbol.mem_all]
  rw [hlegal, ← PerSymbol.nodup_iff_injective]
  refine and_congr_left fun hnodup => ⟨fun hrange g => ⟨fun hg => ?_, ?_⟩, fun honto y => (honto _).mpr ⟨y, rfl⟩⟩
  · obtain ⟨y, -, hy⟩ :=
      List.mem_map.mp (accentRange_subset_of_injective hrange hnodup ((mem_accentRange g).mpr hg))
    exact ⟨y, hy⟩
  · rintro ⟨y, rfl⟩
    exact hrange y

/-- The pairs are legal exactly when no two symbols share one (R104). -/
theorem Params.pairsDistinct_iff (p : Params) : p.pairsDistinct = true ↔
    ∀ a b : Symbol, p.mbPairs.get a = p.mbPairs.get b → a = b := by
  rw [Params.pairsDistinct, decide_eq_true_iff, PerSymbol.nodup_iff_injective]

/-- The glyph ROM is legal exactly when every width is in 1..8 and its two given entries are the source's (R101, R102). -/
theorem Params.romLegal_iff (p : Params) : p.romLegal = true ↔
    (∀ g : GlyphIndex, 1 ≤ p.rom[g].width ∧ p.rom[g].width ≤ 8) ∧
      p.rom[glyphIndexA] = glyphA ∧ p.rom[p.accentIndex.smallA] = glyphSmallAUmlaut := by
  simp only [Params.romLegal, Bool.and_eq_true, beq_iff_eq, Vector.all_eq_true, decide_eq_true_eq, and_assoc,
    Fin.forall_iff]
  rfl

namespace Machine

/-- A block is built exactly from a legal `cfg_n` and legal parameters (R6). -/
theorem State.build_ok_iff (p : Params) (pins : Cfg) :
    (∃ s, State.build p pins = .ok s) ↔ pins.n ≠ 0 ∧ p.legal = true := by
  unfold State.build
  split
  next hbad => simpa using fun hn => hbad.resolve_left hn
  next hgood => simpa using hgood

/-- Settles O56: `Params.legal` is the conjunction of the rules' conditions, by the three lemmas on its parts. -/
theorem buildRefusesInvalidParameters : Obligations.BuildRefusesInvalidParameters := by
  intro p pins
  rw [State.build_ok_iff, Params.legal, Bool.and_eq_true, Bool.and_eq_true, p.romLegal_iff, p.pairsDistinct_iff,
    p.accentsLegal_iff]
  simp only [and_assoc]
  rfl

/-! ### Running one packet -/

/-- A step that has a packet runs it. -/
theorem step_of_fetch_packet {s s' : State} {p : Packet} (h : fetch s = .packet p s') : step s = runPacket p s' := by
  unfold step
  rw [h]

theorem runPacket_ok {p : Packet} {i : Instr} (h : decodePacket p = .ok i) (s : State) : runPacket p s = exec i s := by
  unfold runPacket
  rw [h]

theorem runPacket_error {p : Packet} {c : Cause} (h : decodePacket p = .error c) (s : State) :
    runPacket p s = .next (s.reject c) := by
  unfold runPacket
  rw [h]

/-- A packet, whatever its bits, gives one response, whose value on an error is 0 (R7, R61). -/
theorem runPacket_responds (p : Packet) (s : State) :
    ∃ t r, runPacket p s = .next t ∧ t.responses = s.responses ++ [r] ∧ (r.status ≠ .ok → r.value = 0) := by
  cases hd : decodePacket p with
  | ok i => rw [runPacket_ok hd]; exact exec_responds i s
  | error c => exact ⟨s.reject c, ⟨.error c, 0⟩, runPacket_error hd s, rfl, fun _ => rfl⟩

/-- Settles O50: fetching a packet gives no response of its own, and running it gives one. -/
theorem everyPacketGetsOneResponse : Obligations.EveryPacketGetsOneResponse := by
  intro s s' p hf
  obtain ⟨-, -, -, -, hresponses, -⟩ := fetch_frame (.inl ⟨p, hf⟩)
  rw [step_of_fetch_packet hf, ← hresponses]
  exact runPacket_responds p s'

/-- Settles O54, by the cases of what a step can do; a command always answers a next state. -/
theorem onlyAnInvalidResetIsRefused : Obligations.OnlyAnInvalidResetIsRefused := by
  intro s
  obtain ⟨-, hs⟩ | ⟨s', -, hs⟩ | ⟨p, s', i, -, -, hs⟩ | ⟨p, s', c, -, -, hs⟩ | ⟨pins, s', -, -, hs⟩ |
    ⟨pins, s', hf, hn, hs⟩ := step_cases s
  · exact .inl ⟨s, hs⟩
  · exact .inl ⟨s', hs⟩
  · obtain ⟨m, t, r, hx⟩ := exec_next i s'
    exact .inl ⟨_, hs.trans hx⟩
  · exact .inl ⟨s'.reject c, hs⟩
  · exact .inl ⟨s'.latch pins, hs⟩
  · exact .inr ⟨hs, pins, s', hf, hn⟩

/-! ### Where the packet comes from -/

/-- Bytes that decode to a command frame a packet that decodes to it (R62). -/
theorem decodeBytes_command {bs rest : List Byte} {i : Instr} (h : decodeBytes bs = .command i rest) :
    ∃ p, frame bs = some (p, rest) ∧ decodePacket p = .ok i := by
  unfold decodeBytes at h
  split at h
  next => cases h
  next p r hf =>
    split at h
    next j hd => cases h; exact ⟨p, hf, hd⟩
    next => cases h

/-- A whole packet of the received bytes is fetched first (R45). -/
theorem fetch_of_frame {s : State} {p : Packet} {rest : List Byte} (h : frame s.rx = some (p, rest)) :
    fetch s = .packet p { s with rx := rest } := by
  unfold fetch
  rw [h]

/-- With no whole packet received, a record that is the next input is fetched with its NOW (R158). -/
theorem fetch_of_record {s : State} {now : Word} {p : Packet} {t : List Input} (hrx : frame s.rx = none)
    (hp : s.pending = .record now p :: t) : fetch s = .packet p { s with pending := t, now := now } := by
  unfold fetch takeInput
  rw [hrx, hp]

/-- A step that fetches a packet of a command is that command's `exec`, and the command is well formed (R7, R152). -/
theorem step_of_fetch_command {s s' : State} {p : Packet} {i : Instr} (hf : fetch s = .packet p s')
    (hd : decodePacket p = .ok i) : i.wellFormed = true ∧ step s = exec i s' :=
  ⟨decodePacket_wellFormed hd, (step_of_fetch_packet hf).trans (runPacket_ok hd s')⟩

/-- Settles O58: the packet comes from the received bytes, or from the host's next input. -/
theorem stepRunsTheDecodedCommand : Obligations.StepRunsTheDecodedCommand := by
  refine ⟨fun s i rest hb => ?_, fun s now p t i hrx hp hd => ?_⟩
  · obtain ⟨p, hf, hd⟩ := decodeBytes_command hb
    exact step_of_fetch_command (fetch_of_frame hf) hd
  · exact step_of_fetch_command (fetch_of_record hrx hp) hd

end Machine

end Sys2Proof
end

section
/-! PROOFS of the statements about the state (10_state.md): every step keeps the invariant (R17, R23, R25, R30), only a reset
changes CFG and nothing changes a parameter (R23, R173), and which commands write FB and TK (R26, R29, R30). -/

namespace Sys2Proof.Machine

/-! ### What a step that answers a next state did -/

/-- A command changes no parameter, no configuration register and no reset number (R157). -/
theorem exec_keeps_config {i : Instr} {s t : State} (h : exec i s = .next t) :
    t.params = s.params ∧ t.cfg = s.cfg ∧ t.resets = s.resets := by
  obtain ⟨m, tk, r, hx⟩ := exec_next i s
  cases hx.symm.trans h
  exact ⟨rfl, rfl, rfl⟩

/-- A step that answers a next state waited, took bytes of the link, ran a well-formed command, rejected a packet, or took a
legal reset. -/
theorem step_next_cases {s t : State} (h : step s = .next t) :
    t = s ∨ fetch s = .received t ∨
    (∃ p s' i, fetch s = .packet p s' ∧ i.wellFormed = true ∧ exec i s' = .next t) ∨
    (∃ p s' c, fetch s = .packet p s' ∧ t = s'.reject c) ∨
    ∃ pins s', fetch s = .reset pins s' ∧ pins.n ≠ 0 ∧ t = s'.latch pins := by
  obtain ⟨-, hs⟩ | ⟨s', hf, hs⟩ | ⟨p, s', i, hf, hd, hs⟩ | ⟨p, s', c, hf, -, hs⟩ | ⟨pins, s', hf, hn, hs⟩ |
    ⟨_, _, -, -, hs⟩ := step_cases s
  · cases hs.symm.trans h
    exact .inl rfl
  · cases hs.symm.trans h
    exact .inr (.inl hf)
  · exact .inr (.inr (.inl ⟨p, s', i, hf, decodePacket_wellFormed hd, hs.symm.trans h⟩))
  · cases hs.symm.trans h
    exact .inr (.inr (.inr (.inl ⟨p, s', c, hf, rfl⟩)))
  · cases hs.symm.trans h
    exact .inr (.inr (.inr (.inr ⟨pins, s', hf, hn, rfl⟩)))
  · cases hs.symm.trans h

/-! ### The frame buffer's part of the invariant -/

/-- The frame buffer is canonical and lists only offsets that exist (R25). -/
structure Memory.Valid (c : Cfg) (m : Memory) : Prop where
  canonical : Memory.wf m = true
  within : m.within c

theorem Memory.Valid.clear {c : Cfg} {m : Memory} (h : m.Valid c) : (m.clear c).Valid c :=
  ⟨Memory.wf_clear c h.canonical, Memory.within_clear h.within⟩

theorem Memory.Valid.setPixel {c : Cfg} {m : Memory} (h : m.Valid c) (k : Nat) (x y : Int) (en : Bool) :
    (setPixel c k m x y en).Valid c :=
  ⟨wf_setPixel c k x y en h.canonical, within_setPixel c k x y en h.within⟩

theorem Memory.Valid.draw {c : Cfg} {m : Memory} (h : m.Valid c) (p : Params) (k : Nat) (x0 : Int)
    (gs : List GlyphIndex) : (draw p c k x0 gs m).1.Valid c :=
  ⟨wf_draw p c k x0 gs h.canonical, within_draw p c k x0 gs h.within⟩

theorem Memory.Valid.nil (c : Cfg) : Memory.Valid c [] := ⟨rfl, by simp [Memory.within]⟩

/-- Every command keeps the frame buffer valid. -/
theorem exec_keeps_fb_valid {i : Instr} {s t : State} (h : exec i s = .next t) (hfb : s.fb.Valid s.cfg) :
    t.fb.Valid s.cfg := by
  obtain e | ⟨-, e⟩ | ⟨en, x, y, -, e⟩ | ⟨mb, x, text, -, e⟩ | ⟨-, -, e⟩ := exec_fb h <;> rw [e]
  · exact hfb
  · exact hfb.clear
  · exact hfb.setPixel _ _ _ _
  · exact hfb.draw _ _ _ _
  · exact hfb.clear.draw _ _ _ _

/-! ### The ticker's part of the invariant -/

/-- TK.GLYPH has TK.GCOUNT entries, and an ACTIVE session's length and offset are as R17 and R132 have them. -/
structure Ticker.Valid (p : Params) (t : Ticker) : Prop where
  glyphCount : t.glyph.length = t.gcount.toNat
  sessionLength : t.active = true → t.len.toNat = measureText p t.glyph
  sessionOffset : t.active = true → -32768 ≤ t.offset.toInt ∧ t.offset.toInt ≤ 32767

/-- A right-edge offset, 8·N as a word, is at most 2040 (R17, R24). -/
theorem wordOfNat_displayWidth_bounds (c : Cfg) :
    0 ≤ (wordOfNat (displayWidth c)).toInt ∧ (wordOfNat (displayWidth c)).toInt ≤ 2040 := by
  have hn := c.n.isLt
  have hw : (wordOfNat (displayWidth c)).toNat = 8 * c.n.toNat := by
    rw [wordOfNat, displayWidth, BitVec.toNat_ofNat, Nat.mod_eq_of_lt (by omega)]
  rw [BitVec.toInt_eq_toNat_of_lt (by omega), hw]
  omega

/-- One column to the left, away from the wrap at -2^31 (R135). -/
theorem toInt_sub_one {w : Word} (h : -32768 ≤ w.toInt) : (w - 1).toInt = w.toInt - 1 := by
  have hlt := BitVec.toInt_lt (x := w)
  have hone : (1 : Word).toInt = 1 := rfl
  rw [BitVec.toInt_sub, hone]
  exact Int.bmod_eq_of_le (by omega) (by omega)

/-- The restart keeps the offset in the 16-bit signed range while the message is no longer than 32768 columns (R17, R135). -/
theorem nextOffset_bounds (c : Cfg) {offset len : Word} (hlen : len.toNat ≤ 32768)
    (h : -32768 ≤ offset.toInt ∧ offset.toInt ≤ 32767) :
    -32768 ≤ (nextOffset c offset len).toInt ∧ (nextOffset c offset len).toInt ≤ 32767 := by
  have hw := wordOfNat_displayWidth_bounds c
  have hsub := toInt_sub_one h.1
  unfold nextOffset pastLeftEdge
  split
  next => omega
  next hin =>
    have : ¬ (offset - 1).toInt < -(len.toNat : Int) := by simpa using hin
    omega

/-- A session of at most 255 glyphs is valid from its start, where its offset is in range (R132). -/
theorem startSession_valid (s : State) {gs : List GlyphIndex} {offset : Word} (interval : Word)
    (hp : s.params.legal = true) (hgs : gs.length ≤ 255)
    (ho : -32768 ≤ offset.toInt ∧ offset.toInt ≤ 32767) :
    (startSession s gs offset interval).Valid s.params where
  glyphCount := by
    simp only [startSession_glyph, startSession_gcount, BitVec.toNat_ofNat]
    omega
  sessionLength _ := by
    have hm := measureText_le hp gs
    simp only [startSession_glyph, startSession_len, wordOfNat, BitVec.toNat_ofNat]
    omega
  sessionOffset _ := ho

/-- An advance keeps the session valid: its message has at most 255 glyphs of 9 columns each (R17, R135). -/
theorem advanceTk_valid {s : State} (hp : s.params.legal = true) (h : s.tk.Valid s.params) :
    (advanceTk s).Valid s.params where
  glyphCount := h.glyphCount
  sessionLength := h.sessionLength
  sessionOffset hactive := by
    have hlen := h.sessionLength hactive
    have hm := measureText_le hp s.tk.glyph
    have hc := h.glyphCount
    have := s.tk.gcount.isLt
    exact nextOffset_bounds s.cfg (by omega) (h.sessionOffset hactive)

/-- A ticker that is stopped, or not started since the reset, is valid by its glyph count alone. -/
theorem Ticker.valid_of_inactive {p : Params} {t : Ticker} (hactive : t.active = false)
    (hcount : t.glyph.length = t.gcount.toNat) : t.Valid p where
  glyphCount := hcount
  sessionLength h := absurd (hactive.symm.trans h) Bool.false_ne_true
  sessionOffset h := absurd (hactive.symm.trans h) Bool.false_ne_true

/-- A text that fits decodes to at most 255 glyphs (R107). -/
theorem decodeText_length_le_of_textFits (p : Params) (mb : Bool) {text : List Byte} (h : textFits text = true) :
    (decodeText p mb text).length ≤ 255 :=
  (decodeText_length p mb text).trans (of_decide_eq_true h)

/-- Every well-formed command keeps the ticker valid. -/
theorem exec_keeps_tk_valid {i : Instr} {s t : State} (hi : i.wellFormed = true) (h : exec i s = .next t)
    (hp : s.params.legal = true) (htk : s.tk.Valid s.params) : t.tk.Valid s.params := by
  obtain e | ⟨mb, interval, text, rfl, e⟩ | ⟨mb, off, interval, text, rfl, e⟩ | ⟨-, -, e⟩ | ⟨-, e⟩ := exec_tk h <;>
    rw [e]
  · exact htk
  · have hw := wordOfNat_displayWidth_bounds s.cfg
    exact startSession_valid s interval hp (decodeText_length_le_of_textFits _ mb hi) ⟨by omega, by omega⟩
  · have hlo := BitVec.le_toInt off
    have hhi := BitVec.toInt_lt (x := off)
    refine startSession_valid s interval hp (decodeText_length_le_of_textFits _ mb hi) ?_
    rw [wordOfInt_signedX]
    omega
  · exact advanceTk_valid hp htk
  · exact Ticker.valid_of_inactive rfl htk.glyphCount

/-! ### The invariant -/

/-- The invariant, part by part. -/
theorem State.inv_iff (s : State) :
    s.Inv ↔ s.params.legal = true ∧ s.cfg.n ≠ 0 ∧ s.fb.Valid s.cfg ∧ s.tk.Valid s.params :=
  ⟨fun h => ⟨h.paramsLegal, h.segments, ⟨h.fbCanonical, h.fbBounded⟩, ⟨h.glyphCount, h.sessionLength, h.sessionOffset⟩⟩,
    fun ⟨hp, hn, hfb, htk⟩ =>
      ⟨hp, hn, hfb.canonical, hfb.within, htk.glyphCount, htk.sessionLength, htk.sessionOffset⟩⟩

/-- The invariant is about the parameters, CFG, FB and TK only. -/
theorem State.Inv.congr {s t : State} (h : s.Inv) (hp : t.params = s.params) (hc : t.cfg = s.cfg) (hfb : t.fb = s.fb)
    (htk : t.tk = s.tk) : t.Inv := by
  rw [State.inv_iff] at h ⊢
  rwa [hp, hc, hfb, htk]

/-- Taking the next packet, bytes or reset keeps the invariant. -/
theorem fetch_keeps_inv {s s' : State}
    (hf : (∃ p, fetch s = .packet p s') ∨ fetch s = .received s' ∨ ∃ pins, fetch s = .reset pins s') (h : s.Inv) :
    s'.Inv := by
  obtain ⟨hp, hc, hfb, htk, -, -⟩ := fetch_frame hf
  exact h.congr hp hc hfb htk

/-- Every well-formed command keeps the invariant. -/
theorem exec_keeps_inv {i : Instr} {s t : State} (hi : i.wellFormed = true) (hx : exec i s = .next t) (h : s.Inv) :
    t.Inv := by
  obtain ⟨hparams, hcfg, -⟩ := exec_keeps_config hx
  rw [State.inv_iff] at h ⊢
  obtain ⟨hp, hn, hfb, htk⟩ := h
  rw [hparams, hcfg]
  exact ⟨hp, hn, exec_keeps_fb_valid hx hfb, exec_keeps_tk_valid hi hx hp htk⟩

/-- A legal reset gives the invariant, whatever FB and TK held before (R170, R172). -/
theorem State.latch_inv {s : State} {pins : Cfg} (hn : pins.n ≠ 0) (h : s.Inv) : (s.latch pins).Inv :=
  (State.inv_iff _).mpr ⟨h.paramsLegal, hn, Memory.Valid.nil pins,
    Ticker.valid_of_inactive (Ticker.afterReset_active _) (Ticker.afterReset_glyph_length _)⟩

/-- Settles O49, by the cases of what a step can do; a command keeps the invariant part by part. -/
theorem everyStepKeepsTheInvariant : Obligations.EveryStepKeepsTheInvariant := by
  intro s t h hs
  obtain rfl | hf | ⟨p, s', i, hf, hi, hx⟩ | ⟨p, s', c, hf, rfl⟩ | ⟨pins, s', hf, hn, rfl⟩ := step_next_cases hs
  · exact h
  · exact fetch_keeps_inv (.inr (.inl hf)) h
  · exact exec_keeps_inv hi hx (fetch_keeps_inv (.inl ⟨p, hf⟩) h)
  · exact (fetch_keeps_inv (.inl ⟨p, hf⟩) h).congr rfl rfl rfl rfl
  · exact State.latch_inv hn (fetch_keeps_inv (.inr (.inr ⟨pins, hf⟩)) h)

/-! ### Who writes CFG, FB and TK -/

/-- Settles O51: of what a step can do, only taking a reset touches CFG, and nothing touches the parameters. -/
theorem onlyAResetChangesCfg : Obligations.OnlyAResetChangesCfg := by
  intro s t hs
  obtain rfl | hf | ⟨p, s', i, hf, -, hx⟩ | ⟨p, s', c, hf, rfl⟩ | ⟨pins, s', hf, -, rfl⟩ := step_next_cases hs
  · exact ⟨rfl, fun hne => absurd rfl hne⟩
  · obtain ⟨hp, hc, -⟩ := fetch_frame (.inr (.inl hf))
    exact ⟨hp, fun hne => absurd hc hne⟩
  · obtain ⟨hp, hc, -⟩ := fetch_frame (.inl ⟨p, hf⟩)
    obtain ⟨hp', hc', -⟩ := exec_keeps_config hx
    exact ⟨hp'.trans hp, fun hne => absurd (hc'.trans hc) hne⟩
  · obtain ⟨hp, hc, -⟩ := fetch_frame (.inl ⟨p, hf⟩)
    exact ⟨hp, fun hne => absurd hc hne⟩
  · obtain ⟨hp, -⟩ := fetch_frame (.inr (.inr ⟨pins, hf⟩))
    exact ⟨hp, fun _ => ⟨pins, s', hf, rfl⟩⟩

/-- Settles O52, by the cases of what a command does to FB: where FB is as before, so is every byte of it. -/
theorem onlyTheWritersChangeFb : Obligations.OnlyTheWritersChangeFb := by
  intro i s t a hx hne
  obtain hfb | ⟨hi, -⟩ | ⟨en, x, y, hi, -⟩ | ⟨mb, x, text, hi, -⟩ | ⟨hi, hadv, -⟩ := exec_fb hx
  · obtain ⟨-, -, hresets⟩ := exec_keeps_config hx
    exact absurd (by rw [State.byte_eq, State.byte_eq, hfb, hresets]) hne
  · exact .inl hi
  · exact .inr (.inl ⟨en, x, y, hi⟩)
  · exact .inr (.inr (.inl ⟨mb, x, text, hi⟩))
  · exact .inr (.inr (.inr ⟨hi, (pollAdvances_iff s).mp hadv⟩))

/-- Settles O53, by the cases of what a command does to TK; an advance keeps TK.ACTIVE and TK.GLYPH, a stop keeps TK.GLYPH. -/
theorem onlyTickerCommandsChangeTk : Obligations.OnlyTickerCommandsChangeTk := by
  intro i s t hx
  obtain htk | ⟨mb, iv, text, hi, htk⟩ | ⟨mb, off, iv, text, hi, htk⟩ | ⟨hi, hadv, htk⟩ | ⟨hi, htk⟩ := exec_tk hx <;>
    rw [htk]
  · exact ⟨fun hne => absurd rfl hne, fun hf ht => by simp [hf] at ht, fun ht hf => by simp [ht] at hf,
      fun hne => absurd rfl hne⟩
  · exact ⟨fun _ => .inl ⟨mb, iv, text, hi⟩, fun _ _ => .inl ⟨mb, iv, text, hi⟩, fun _ hf => by simp at hf,
      fun _ => .inl ⟨mb, iv, text, hi⟩⟩
  · exact ⟨fun _ => .inr (.inl ⟨mb, off, iv, text, hi⟩), fun _ _ => .inr ⟨mb, off, iv, text, hi⟩,
      fun _ hf => by simp at hf, fun _ => .inr ⟨mb, off, iv, text, hi⟩⟩
  · exact ⟨fun _ => .inr (.inr (.inr ⟨hi, (pollAdvances_iff s).mp hadv⟩)),
      fun hf ht => by simp [hf] at ht, fun ht hf => by simp [ht] at hf,
      fun hne => absurd rfl hne⟩
  · exact ⟨fun _ => .inr (.inr (.inl hi)), fun _ ht => by simp at ht, fun _ _ => hi,
      fun hne => absurd rfl hne⟩

end Sys2Proof.Machine
end

section
/-! PROOFS of the statements about the memory and the packet stream (20_memory.md): a command's link bytes decode to it (R42,
R62), reads have no side effect and the writes of R48 are idempotent, and queued packets run in order (R47, R50). -/

namespace Sys2Proof

/-! ### A command's packet decodes to it -/

/-- The header of a command's packet is selected by the command's own row, and the packet's parts fit it (R65, R68). -/
theorem selectRow_encode_and_partsFit (i : Instr) : Laws.EncodedRow.Statement i := by
  cases i with
  | clear => exact Laws.EncodedRow.clear
  | setPixel en x y => exact Laws.EncodedRow.setPixel en x y
  | getPixel x y => exact Laws.EncodedRow.getPixel x y
  | pixelLength mb text => exact Laws.EncodedRow.pixelLength mb text
  | printText mb x text => exact Laws.EncodedRow.printText mb x text
  | startTicker mb interval text => exact Laws.EncodedRow.startTicker mb interval text
  | startTickerAt mb off interval text => exact Laws.EncodedRow.startTickerAt mb off interval text
  | pollTicker => exact Laws.EncodedRow.pollTicker
  | stopTicker => exact Laws.EncodedRow.stopTicker
  | readFb row seg => exact Laws.EncodedRow.readFb row seg
  | readStatus sel => exact Laws.EncodedRow.readStatus sel

/-- A packet whose header a row selects and whose parts fit decodes to that row's command (R65, R152). -/
theorem decodePacket_of_selectRow {p : Packet} {r : Row} (hr : selectRow p.header = some r) (hp : partsFit p = true) :
    decodePacket p = .ok (r.command p (p.interval.getD 0)) := by
  simp [decodePacket, reservedOpcode_of_selects (selects_of_selectRow hr), hr, hp]

/-- The command's own row reads every operand back from the packet (R63). -/
theorem row_command_encode (i : Instr) : i.row.command (encode i) ((encode i).interval.getD 0) = i := by
  cases i <;> simp [Instr.row, Row.command, encode]

/-- The packet of a well-formed command decodes to it (R63-R65). -/
theorem decodePacket_encode {i : Instr} (h : i.wellFormed = true) : decodePacket (encode i) = .ok i := by
  obtain ⟨hrow, hparts⟩ := selectRow_encode_and_partsFit i h
  rw [decodePacket_of_selectRow hrow hparts, row_command_encode]

/-- Bytes that frame a packet of a command decode to the command. -/
theorem decodeBytes_of_frame {bs rest : List Byte} {p : Packet} {i : Instr} (hf : frame bs = some (p, rest))
    (hd : decodePacket p = .ok i) : decodeBytes bs = .command i rest := by
  simp only [decodeBytes, hf, hd]

/-- Settles O4: the link bytes frame the command's packet, and that packet decodes to the command. -/
theorem linkBytesDecodeToTheCommand : Obligations.LinkBytesDecodeToTheCommand := by
  intro i rest hi
  obtain ⟨-, hparts⟩ := selectRow_encode_and_partsFit i hi
  exact decodeBytes_of_frame (frame_packetBytes _ rest hparts) (decodePacket_encode hi)

namespace Machine

/-! ### The frame buffer is what its pixels are -/

/-- Every bit of the frame buffer is a pixel of the display, the one that `inverseTransform` names (R84, R86). -/
theorem inverseTransform_inDisplay_phys {c : Cfg} {a j : Nat} (ha : a < fbSize c) (hj : j < 8) :
    inDisplay c (inverseTransform c a j).1 (inverseTransform c a j).2 ∧
      physOff c (inverseTransform c a j).1 (inverseTransform c a j).2 = a ∧
      physBit c (inverseTransform c a j).1 = j := by
  have ha' : a < c.n.toNat * 8 := by unfold fbSize at ha; omega
  have hrow : a / c.n.toNat < 8 := Nat.div_lt_of_lt_mul ha'
  have hseg : a % c.n.toNat < c.n.toNat := Nat.mod_lt _ (by omega)
  have hsplit : a / c.n.toNat * c.n.toNat + a % c.n.toNat = a := Nat.div_add_mod' a c.n.toNat
  refine ⟨?_, ?_, ?_⟩ <;>
    simp only [inDisplay, displayWidth, physOff, physRow, physSeg, physBit, inverseTransform] <;>
    generalize a / c.n.toNat = row, a % c.n.toNat = seg at hrow hseg hsplit ⊢
  · refine ⟨?_, ?_, ?_, ?_⟩ <;> split_ifs <;> omega
  · rw [← hsplit]
    congr 2 <;> split_ifs <;> omega
  · split_ifs <;> omega

/-- Frame buffers with the same pixels and the same bytes beyond the display have the same bytes. -/
theorem byte_congr_of_pixel {c : Cfg} {k : Nat} {m m' : Memory}
    (hpixel : ∀ x y, inDisplay c x y → pixel c k m x y = pixel c k m' x y)
    (hout : ∀ a, fbSize c ≤ a → m.byte k a = m'.byte k a) (a : Nat) : m.byte k a = m'.byte k a := by
  rcases Nat.lt_or_ge a (fbSize c) with ha | ha
  · refine BitVec.eq_of_getLsbD_eq fun j hj => ?_
    obtain ⟨hd, hoff, hbit⟩ := inverseTransform_inDisplay_phys ha hj
    have hread := hpixel _ _ hd
    rwa [pixel_in hd, pixel_in hd, hoff, hbit] at hread
  · exact hout a ha

/-! ### Writing twice -/

/-- Clearing a cleared frame buffer changes no byte. -/
theorem byte_clear_clear (c : Cfg) (k : Nat) (m : Memory) (a : Nat) :
    ((m.clear c).clear c).byte k a = (m.clear c).byte k a := by
  rw [Memory.byte_clear, Memory.byte_clear]
  split <;> rfl

/-- A pixel write changes no byte outside the frame buffer's 8·N. -/
theorem byte_setPixel_outside (c : Cfg) (k : Nat) (m : Memory) (x y : Int) (en : Bool) {a : Nat} (ha : fbSize c ≤ a) :
    (setPixel c k m x y en).byte k a = m.byte k a := by
  by_cases hd : inDisplay c x y
  · have hoff := physOff_lt hd
    rw [setPixel_in hd, Memory.byte_set, if_neg (by omega)]
  · rw [setPixel_out hd]

/-- Writing a pixel again changes no byte. -/
theorem byte_setPixel_setPixel (c : Cfg) (k : Nat) (m : Memory) (x y : Int) (en : Bool) (a : Nat) :
    (setPixel c k (setPixel c k m x y en) x y en).byte k a = (setPixel c k m x y en).byte k a := by
  refine byte_congr_of_pixel (c := c) (fun x' y' _ => ?_) (fun a ha => byte_setPixel_outside c k _ x y en ha) a
  rw [pixel_setPixel, pixel_setPixel]
  split <;> rfl

/-- Drawing a text again at the same place changes no byte: a pixel the text writes does not depend on what was there. -/
theorem byte_draw_draw (p : Params) (c : Cfg) (k : Nat) (x0 : Int) (gs : List GlyphIndex) (m : Memory) (a : Nat) :
    (draw p c k x0 gs (draw p c k x0 gs m).1).1.byte k a = (draw p c k x0 gs m).1.byte k a := by
  refine byte_congr_of_pixel (c := c) (fun x y hd => ?_) (fun a ha => byte_draw_outside p c k x0 gs _ a ha) a
  lift y to Nat using hd.2.2.1
  have hr : y < 8 := by have := hd.2.2.2; omega
  have hdraw (m : Memory) := pixel_drawFrom p c k gs x0 m x ⟨y, hr⟩ hd
  simp only [draw, hdraw]
  cases textPixel p gs x0 x ⟨y, hr⟩ <;> rfl

/-! ### Reads and idempotent writes (R48) -/

/-- READ_FB of a segment the block has answers the byte (R95). -/
theorem exec_readFb_of_lt {seg : BitVec 8} {s : State} (h : seg.toNat < s.cfg.n.toNat) (row : BitVec 3) :
    exec (.readFb row seg) s =
      .next (s.respond ((s.byte (row.toNat * s.cfg.n.toNat + seg.toNat)).setWidth 32)) :=
  if_neg (Nat.not_le.mpr h)

/-- READ_FB of a segment the block does not have is rejected (R95). -/
theorem exec_readFb_of_ge {seg : BitVec 8} {s : State} (h : s.cfg.n.toNat ≤ seg.toNat) (row : BitVec 3) :
    exec (.readFb row seg) s = .next (s.reject .range) :=
  if_pos h

/-- READ_STATUS of a selector that has a register answers it (R138). -/
theorem exec_readStatus_of_some {sel : BitVec 8} {s : State} {v : Word} (h : statusView s sel.toNat = some v) :
    exec (.readStatus sel) s = .next (s.respond v) := by
  simp only [exec, execReadStatus, h]

/-- READ_STATUS of any other selector is rejected (R138). -/
theorem exec_readStatus_of_none {sel : BitVec 8} {s : State} (h : statusView s sel.toNat = none) :
    exec (.readStatus sel) s = .next (s.reject .range) := by
  simp only [exec, execReadStatus, h]

/-- A poll that advances answers 1 (R134). -/
theorem exec_pollTicker_of_advances {s : State} (h : pollAdvances s = true) :
    exec .pollTicker s = .next ((advance s).respond 1) :=
  if_pos h

/-- A poll that does not advance answers 0 and does nothing else (R134). -/
theorem exec_pollTicker_of_waits {s : State} (h : pollAdvances s = false) :
    exec .pollTicker s = .next (s.respond 0) :=
  if_neg (Bool.eq_false_iff.mp h)

/-- The commands that R48 calls reads, and a poll that does not advance, change nothing but the responses. -/
theorem exec_read_answers {i : Instr} {s : State}
    (hi : (∃ x y, i = .getPixel x y) ∨ (∃ row seg, i = .readFb row seg) ∨ (∃ mb text, i = .pixelLength mb text) ∨
      (∃ sel, i = .readStatus sel) ∨ (i = .pollTicker ∧ pollAdvances s = false)) :
    ∃ r, exec i s = .next (s.answer r) := by
  obtain ⟨x, y, rfl⟩ | ⟨row, seg, rfl⟩ | ⟨mb, text, rfl⟩ | ⟨sel, rfl⟩ | ⟨rfl, hwait⟩ := hi
  · exact ⟨_, rfl⟩
  · rcases Nat.lt_or_ge seg.toNat s.cfg.n.toNat with hseg | hseg
    · exact ⟨_, exec_readFb_of_lt hseg row⟩
    · exact ⟨_, exec_readFb_of_ge hseg row⟩
  · exact ⟨_, rfl⟩
  · cases hview : statusView s sel.toNat with
    | some v => exact ⟨_, exec_readStatus_of_some hview⟩
    | none => exact ⟨_, exec_readStatus_of_none hview⟩
  · exact ⟨_, exec_pollTicker_of_waits hwait⟩

/-- Settles O26: a read only answers; a second CLEAR, SET_PIXEL or PRINT_TEXT writes the bytes that are there, and a second
STOP or START writes the registers that are there. -/
theorem readsPureAndWritesIdempotent : Obligations.ReadsPureAndWritesIdempotent := by
  refine ⟨fun i s t hx hi => ?_, fun i s t hx hi => ?_⟩
  · obtain ⟨r, hr⟩ := exec_read_answers hi
    cases hr.symm.trans hx
    exact ⟨r, rfl⟩
  · obtain rfl | ⟨en, x, y, rfl⟩ | ⟨mb, x, text, rfl⟩ | rfl | ⟨mb, iv, text, rfl⟩ | ⟨mb, off, iv, text, rfl⟩ := hi <;>
      cases hx
    · exact ⟨_, rfl, rfl, rfl, rfl, byte_clear_clear s.cfg s.resets s.fb⟩
    · exact ⟨_, rfl, rfl, rfl, rfl, byte_setPixel_setPixel s.cfg s.resets s.fb (signedX x) (signedY y) en⟩
    · exact ⟨_, rfl, rfl, rfl, rfl,
        byte_draw_draw s.params s.cfg s.resets (signedX x) (decodeText s.params mb text) s.fb⟩
    · exact ⟨_, rfl, rfl, rfl, rfl, fun _ => rfl⟩
    · exact ⟨_, rfl, rfl, rfl, rfl, fun _ => rfl⟩
    · exact ⟨_, rfl, rfl, rfl, rfl, fun _ => rfl⟩

/-! ### Queued packets (R47, R50, R182) -/

/-- A command takes nothing from the host's queue and nothing from the receive buffer. -/
theorem exec_keeps_inputs {i : Instr} {s t : State} (h : exec i s = .next t) : t.pending = s.pending ∧ t.rx = s.rx := by
  obtain ⟨m, tk, r, hx⟩ := exec_next i s
  cases hx.symm.trans h
  exact ⟨rfl, rfl⟩

/-- What a command does does not depend on the inputs still queued: another queue only rides along. -/
theorem exec_with_pending {i : Instr} {s t : State} (h : exec i s = .next t) (q : List Input) :
    exec i { s with pending := q } = .next { t with pending := q } := by
  cases i with
  | pollTicker =>
    cases hadv : pollAdvances s with
    | true => cases (exec_pollTicker_of_advances hadv).symm.trans h; exact exec_pollTicker_of_advances hadv
    | false => cases (exec_pollTicker_of_waits hadv).symm.trans h; exact exec_pollTicker_of_waits hadv
  | readFb row seg =>
    rcases Nat.lt_or_ge seg.toNat s.cfg.n.toNat with hseg | hseg
    · cases (exec_readFb_of_lt hseg row).symm.trans h; exact exec_readFb_of_lt (s := { s with pending := q }) hseg row
    · cases (exec_readFb_of_ge hseg row).symm.trans h; exact exec_readFb_of_ge (s := { s with pending := q }) hseg row
  | readStatus sel =>
    cases hview : statusView s sel.toNat with
    | some v => cases (exec_readStatus_of_some hview).symm.trans h; exact exec_readStatus_of_some hview
    | none => cases (exec_readStatus_of_none hview).symm.trans h; exact exec_readStatus_of_none hview
  | _ => cases h; rfl

/-- A step that finds no received byte and a well-formed command's record runs the command, whole, at its NOW. -/
theorem step_of_queued_command {s : State} {now : Word} {i : Instr} {q : List Input} (hi : i.wellFormed = true)
    (hrx : s.rx = []) (hp : s.pending = .record now (encode i) :: q) :
    step s = exec i { s with pending := q, now := now } := by
  have hframe : frame s.rx = none := by rw [hrx]; rfl
  exact (step_of_fetch_command (fetch_of_record hframe hp) (decodePacket_encode hi)).2

/-- A run takes its first step first. -/
theorem run_succ_of_step {s s' : State} (h : step s = .next s') (n : Nat) : core.run (n + 1) s = core.run n s' := by
  have hcore : core.step s = .next s' := h
  simp only [Host.Core.run, hcore]

/-- A list of commands runs its first command first, at that command's NOW. -/
theorem runCommands_cons_of_exec {s t : State} {now : Word} {i : Instr} (h : exec i (s.atTime now) = .next t)
    (rest : List (Word × Instr)) : runCommands ((now, i) :: rest) s = runCommands rest t := by
  rw [runCommands, h]

/-- Settles O60, by induction on the queue: each step runs the first command, which leaves the queue and the receive buffer
alone. -/
theorem queuedPacketsRunInOrder : Obligations.QueuedPacketsRunInOrder := by
  intro s commands
  induction commands generalizing s with
  | nil =>
    intro _ _ hp
    have hs : { s with pending := [] } = s := by rw [← List.map_nil, ← hp]
    exact ⟨s, rfl, by rw [hs]; rfl⟩
  | cons c rest ih =>
    obtain ⟨now, i⟩ := c
    intro hwf hrx hp
    obtain ⟨hi, hrest⟩ := List.forall_mem_cons.mp hwf
    obtain ⟨m, tk, r, hx⟩ := exec_next i { s with pending := rest.map fun c => .record c.1 (encode c.2), now := now }
    obtain ⟨hpending, hrx'⟩ := exec_keeps_inputs hx
    obtain ⟨t, hrun, hcommands⟩ := ih _ hrest (hrx'.trans hrx) hpending
    refine ⟨t, (run_succ_of_step ((step_of_queued_command hi hrx hp).trans hx) _).trans hrun, ?_⟩
    exact (runCommands_cons_of_exec (exec_with_pending hx []) rest).trans hcommands

end Machine

end Sys2Proof
end


section
/-! PROOFS of the statements about the encoding (30_encoding.md): the decoder's causes and which headers a row selects
(R65-R68), a packet and its command determine each other (R63-R65), framing on a byte link (R62), a response's bytes (R61), and
the assembler's operand limits and lines (R70-R72). -/

namespace Sys2Proof

open Machine

/-! ### Which headers a row selects (R65, R67) -/

/-- The bit fields, each as (lowest bit, width), that a row fixes: its opcode and, by R67, the bits it requires to be 0 (for OP
0x6 also D, which tells the two rows apart). -/
def Row.fixedFields : Row → List (Nat × Nat)
  | .clear | .pollTicker | .stopTicker => [(28, 4), (0, 28)]
  | .setPixel | .printText => [(28, 4), (24, 3)]
  | .getPixel => [(28, 4), (24, 4)]
  | .pixelLength => [(28, 4), (24, 3), (8, 16)]
  | .startTicker => [(28, 4), (26, 1), (24, 2), (8, 16)]
  | .startTickerAt => [(28, 4), (26, 1), (24, 2)]
  | .readFb => [(28, 4), (11, 17)]
  | .readStatus => [(28, 4), (8, 20)]

/-- A row's mask covers exactly the bits of its fixed fields (R65). -/
theorem Row.mask_getLsbD_iff (r : Row) :
    ∀ i < 32, r.mask.getLsbD i = true ↔ ∃ q ∈ r.fixedFields, q.1 ≤ i ∧ i < q.1 + q.2 := by
  cases r <;> decide

/-- A selected header has the pattern's value in every field that the mask covers. -/
theorem extractLsb'_of_selects {r : Row} {h : Word} (hs : r.selects h = true) {start len : Nat}
    (hm : r.mask.extractLsb' start len = BitVec.allOnes len) :
    h.extractLsb' start len = r.pattern.extractLsb' start len := by
  have hmatch : h &&& r.mask = r.pattern := by simpa [Row.selects] using hs
  rw [← hmatch, BitVec.extractLsb'_and, hm, BitVec.and_allOnes]

/-- A row selects a header exactly when every field it fixes is as its pattern has it. -/
theorem selects_iff_fixedFields (r : Row) (h : Word) :
    r.selects h = true ↔ ∀ q ∈ r.fixedFields, h.extractLsb' q.1 q.2 = r.pattern.extractLsb' q.1 q.2 := by
  refine ⟨fun hs q hq => extractLsb'_of_selects hs ?_, fun hf => selects_of_bits fun i hi hm => ?_⟩
  · revert q
    cases r <;> decide
  · obtain ⟨q, hq, hlo, hhi⟩ := (r.mask_getLsbD_iff i hi).mp hm
    have hbit := congrArg (fun f => f.getLsbD (i - q.1)) (hf q hq)
    simpa [BitVec.getLsbD_extractLsb', Nat.sub_lt_left_of_lt_add hlo hhi, Nat.add_sub_cancel' hlo] using hbit

/-- A row's opcode (R65). -/
def Row.opcode : Row → BitVec 4
  | .clear => 0x1
  | .setPixel => 0x2
  | .getPixel => 0x3
  | .pixelLength => 0x4
  | .printText => 0x5
  | .startTicker | .startTickerAt => 0x6
  | .pollTicker => 0x7
  | .stopTicker => 0x8
  | .readFb => 0x9
  | .readStatus => 0xA

@[simp] theorem opField_pattern (r : Row) : opField r.pattern = r.opcode := by cases r <;> decide

/-- What a row asks of a header beside its opcode: R67's bits are 0, and D is the one of the row (R65). -/
def Row.restFits (h : Word) : Row → Prop
  | .clear | .pollTicker | .stopTicker => h.extractLsb' 0 28 = 0
  | .setPixel | .printText => h.extractLsb' 24 3 = 0
  | .getPixel => h.extractLsb' 24 4 = 0
  | .pixelLength => h.extractLsb' 24 3 = 0 ∧ h.extractLsb' 8 16 = 0
  | .startTicker => dField h = false ∧ h.extractLsb' 24 2 = 0 ∧ h.extractLsb' 8 16 = 0
  | .startTickerAt => dField h = true ∧ h.extractLsb' 24 2 = 0
  | .readFb => h.extractLsb' 11 17 = 0
  | .readStatus => h.extractLsb' 8 20 = 0

/-- The one-bit field at bit 26 is D (R63). -/
theorem extractLsb'_26_one_iff (h : Word) :
    (h.extractLsb' 26 1 = 0#1 ↔ dField h = false) ∧ (h.extractLsb' 26 1 = 1#1 ↔ dField h = true) := by
  have hbit : h.extractLsb' 26 1 = BitVec.ofBool (dField h) := by
    refine BitVec.eq_of_getLsbD_eq fun j hj => ?_
    obtain rfl : j = 0 := by omega
    simp [dField]
  rw [hbit]
  cases dField h <;> decide

/-- A row selects a header exactly when the opcode is its own and the rest fits (R65). -/
theorem selects_iff (r : Row) (h : Word) : r.selects h = true ↔ opField h = r.opcode ∧ r.restFits h := by
  rw [selects_iff_fixedFields]
  cases r <;> simp [Row.fixedFields, Row.restFits, Row.opcode, opField, Row.pattern, extractLsb'_26_one_iff]

/-- Under a row's opcode the rest fits exactly when no bit of R67's list is 1 and, for OP 0x6, D is the row's. -/
theorem restFits_iff {r : Row} {h : Word} (hop : opField h = r.opcode) :
    r.restFits h ↔ ¬ reservedBitSet h ∧ (r.opcode = 0x6 → dField h = dField r.pattern) := by
  cases r with
  | startTicker | startTickerAt =>
    simp only [Row.restFits, hop, Row.opcode, reservedBitSet, Row.pattern, dField]
    grind
  | _ => simp [Row.restFits, hop, Row.opcode, reservedBitSet]

theorem Row.mem_all (r : Row) : r ∈ Row.all := by cases r <;> decide

/-- Two rows that select one header are one row: where both masks are 1 the patterns of two rows differ (R67). -/
theorem row_eq_of_selects {r r' : Row} {h : Word} (hs : r.selects h = true) (hs' : r'.selects h = true) : r = r' := by
  have hdiffer : ∀ r ∈ Row.all, ∀ r' ∈ Row.all, r.pattern &&& r'.mask = r'.pattern &&& r.mask → r = r' := by decide
  have hmatch : h &&& r.mask = r.pattern := by simpa [Row.selects] using hs
  have hmatch' : h &&& r'.mask = r'.pattern := by simpa [Row.selects] using hs'
  refine hdiffer r r.mem_all r' r'.mem_all ?_
  rw [← hmatch, ← hmatch', BitVec.and_assoc, BitVec.and_assoc, BitVec.and_comm r.mask]

/-- A row selects a header exactly when neither its opcode is reserved nor a bit of R67's list is 1. -/
theorem exists_selects_iff (h : Word) :
    (∃ r : Row, r.selects h = true) ↔ ¬ opcodeReserved h ∧ ¬ reservedBitSet h := by
  constructor
  · rintro ⟨r, hs⟩
    obtain ⟨hop, hrest⟩ := (selects_iff r h).mp hs
    refine ⟨?_, ((restFits_iff hop).mp hrest).1⟩
    rw [opcodeReserved, hop]
    cases r <;> decide
  · rintro ⟨hop, hbits⟩
    have hrow : ∀ (op : BitVec 4) (d : Bool), ¬ (op = 0x0 ∨ 0xB ≤ op.toNat) →
        ∃ r ∈ Row.all, op = r.opcode ∧ (r.opcode = 0x6 → d = dField r.pattern) := by decide
    obtain ⟨r, -, hr, hd⟩ := hrow (opField h) (dField h) hop
    exact ⟨r, (selects_iff r h).mpr ⟨hr, (restFits_iff hr).mpr ⟨hbits, hd⟩⟩⟩

theorem selectRow_eq_none_iff (h : Word) : selectRow h = none ↔ ¬ ∃ r : Row, r.selects h = true := by
  simp [selectRow, List.find?_eq_none, Row.mem_all]

/-- The decoder's test of the opcode is R66's. -/
theorem reservedOpcode_iff (h : Word) : reservedOpcode h = true ↔ opcodeReserved h := by
  simp [reservedOpcode, opcodeReserved, BitVec.le_def]

/-! ### The parts a header asks for (R60, R62, R68) -/

theorem hasInterval_iff (h : Word) : hasInterval h = true ↔ opField h = 0x6 := beq_iff_eq

theorem hasText_iff (h : Word) : hasText h = true ↔ opField h = 0x4 ∨ opField h = 0x5 ∨ opField h = 0x6 := by
  simp [hasText, or_assoc]

theorem payloadLength_of_hasText {h : Word} (ht : hasText h = true) : payloadLength h = (lowField h).toNat := if_pos ht

theorem payloadLength_of_not_hasText {h : Word} (ht : hasText h = false) : payloadLength h = 0 := by
  simp [payloadLength, ht]

theorem partsFit_iff (p : Packet) :
    partsFit p = true ↔ p.interval.isSome = hasInterval p.header ∧ p.payload.length = payloadLength p.header := by
  simp [partsFit]

theorem payload_length_of_partsFit {p : Packet} (hp : partsFit p = true)
    (hop : opField p.header = 0x4 ∨ opField p.header = 0x5 ∨ opField p.header = 0x6) :
    p.payload.length = (lowField p.header).toNat :=
  ((partsFit_iff p).mp hp).2.trans (payloadLength_of_hasText ((hasText_iff _).mpr hop))

theorem payload_eq_nil_of_partsFit {p : Packet} (hp : partsFit p = true)
    (hop : ¬ (opField p.header = 0x4 ∨ opField p.header = 0x5 ∨ opField p.header = 0x6)) : p.payload = [] := by
  rw [← List.length_eq_zero_iff, ((partsFit_iff p).mp hp).2, payloadLength_of_not_hasText]
  exact Bool.eq_false_iff.mpr (mt (hasText_iff _).mp hop)

theorem exists_interval_of_partsFit {p : Packet} (hp : partsFit p = true) (hop : opField p.header = 0x6) :
    ∃ w, p.interval = some w :=
  Option.isSome_iff_exists.mp (((partsFit_iff p).mp hp).1.trans ((hasInterval_iff _).mpr hop))

theorem interval_eq_none_of_partsFit {p : Packet} (hp : partsFit p = true) (hop : opField p.header ≠ 0x6) :
    p.interval = none := by
  rw [← Option.not_isSome_iff_eq_none, ((partsFit_iff p).mp hp).1]
  exact mt (hasInterval_iff _).mp hop

/-- The decoder's test of the parts is R68's. -/
theorem not_partsFit_iff (p : Packet) : ¬ partsFit p = true ↔ partsMisfit p := by
  have hinterval : p.interval.isSome = hasInterval p.header ↔ (opField p.header = 0x6 ↔ p.interval ≠ none) := by
    rw [← hasInterval_iff]
    cases p.interval <;> cases hasInterval p.header <;> simp
  rw [partsFit_iff, hinterval, partsMisfit]
  cases ht : hasText p.header with
  | true =>
    have hop := (hasText_iff _).mp ht
    rw [payloadLength_of_hasText ht]
    grind
  | false =>
    have hop := mt (hasText_iff _).mpr (Bool.eq_false_iff.mp ht)
    rw [payloadLength_of_not_hasText ht, List.length_eq_zero_iff]
    grind

/-! ### The decoder's causes (R66, R67, R68, R152) -/

theorem decodePacket_of_reservedOpcode {p : Packet} (h : opcodeReserved p.header) :
    decodePacket p = .error .illegalOpcode := by
  rw [decodePacket, if_pos ((reservedOpcode_iff _).mpr h)]

theorem decodePacket_of_selectRow_none {p : Packet} (hop : ¬ opcodeReserved p.header) (h : selectRow p.header = none) :
    decodePacket p = .error .reservedField := by
  rw [decodePacket, if_neg (mt (reservedOpcode_iff _).mp hop), h]

theorem decodePacket_of_not_partsFit {p : Packet} {r : Row} (h : selectRow p.header = some r) (hp : ¬ partsFit p = true) :
    decodePacket p = .error .badPacket := by
  simp [decodePacket, reservedOpcode_of_selects (selects_of_selectRow h), h, hp]

/-- What the decoder answers: the first of R152's checks that fails, each as the rules R66 to R68 write it, or a command. -/
theorem decodePacket_cases (p : Packet) :
    (opcodeReserved p.header ∧ decodePacket p = .error .illegalOpcode) ∨
    (¬ opcodeReserved p.header ∧ reservedBitSet p.header ∧ decodePacket p = .error .reservedField) ∨
    (¬ opcodeReserved p.header ∧ ¬ reservedBitSet p.header ∧ partsMisfit p ∧ decodePacket p = .error .badPacket) ∨
    (¬ opcodeReserved p.header ∧ ¬ reservedBitSet p.header ∧ ¬ partsMisfit p ∧ ∃ i, decodePacket p = .ok i) := by
  by_cases hop : opcodeReserved p.header
  · exact .inl ⟨hop, decodePacket_of_reservedOpcode hop⟩
  cases hr : selectRow p.header with
  | none =>
    have hbits : reservedBitSet p.header := by
      rw [selectRow_eq_none_iff, exists_selects_iff] at hr
      exact not_not.mp fun hbits => hr ⟨hop, hbits⟩
    exact .inr (.inl ⟨hop, hbits, decodePacket_of_selectRow_none hop hr⟩)
  | some r =>
    obtain ⟨-, hbits⟩ := (exists_selects_iff _).mp ⟨r, selects_of_selectRow hr⟩
    by_cases hp : partsFit p = true
    · have hfit : ¬ partsMisfit p := mt (not_partsFit_iff p).mpr (not_not.mpr hp)
      exact .inr (.inr (.inr ⟨hop, hbits, hfit, _, decodePacket_of_selectRow hr hp⟩))
    · exact .inr (.inr (.inl ⟨hop, hbits, (not_partsFit_iff p).mp hp, decodePacket_of_not_partsFit hr hp⟩))

/-- Each cause of the decoder, exactly in the cases of its rule. -/
theorem decodePacket_error_iff (p : Packet) :
    (decodePacket p = .error .illegalOpcode ↔ opcodeReserved p.header) ∧
    (decodePacket p = .error .reservedField ↔ ¬ opcodeReserved p.header ∧ reservedBitSet p.header) ∧
    (decodePacket p = .error .badPacket ↔
      ¬ opcodeReserved p.header ∧ ¬ reservedBitSet p.header ∧ partsMisfit p) := by
  obtain ⟨hop, hd⟩ | ⟨hop, hbits, hd⟩ | ⟨hop, hbits, hparts, hd⟩ | ⟨hop, hbits, hparts, i, hd⟩ :=
    decodePacket_cases p <;> simp only [*] <;> simp

/-- Settles O6: the decoder's causes are the rules' cases, and a row selects exactly the headers that are in none of them. -/
theorem reservedFieldExactlyInTheListedCases : Obligations.ReservedFieldExactlyInTheListedCases := by
  intro p
  obtain ⟨hillegal, hreserved, -⟩ := decodePacket_error_iff p
  exact ⟨hreserved, (exists_selects_iff _).symm, fun _ _ => row_eq_of_selects, hillegal⟩

/-- Settles O8: BAD_PACKET is the decoder's third cause; a packet cut off a byte link has the parts its header asks for. -/
theorem badPacketExactlyWhenPartsMisfit : Obligations.BadPacketExactlyWhenPartsMisfit := by
  have hbad (p : Packet) := (decodePacket_error_iff p).2.2
  refine ⟨hbad, fun bs rest p hf hd => ?_⟩
  obtain ⟨-, -, hmisfit⟩ := (hbad p).mp hd
  obtain ⟨-, hfit⟩ := frame_some hf
  exact (not_partsFit_iff p).mpr hmisfit hfit

/-! ### A command's packet decodes to it, and a decoded packet is its command's (R63-R68) -/

/-- Settles O2: the command's own row is selected, and reads every operand back. -/
theorem decodeOfEncodeIsTheCommand : Obligations.DecodeOfEncodeIsTheCommand := fun _ => decodePacket_encode

theorem fField_of_selects {r : Row} {h : Word} (hs : r.selects h = true) (hm : fField r.mask = true) :
    fField h = fField r.pattern := bit_of_selects hs hm

theorem xField_of_selects {r : Row} {h : Word} (hs : r.selects h = true) (hm : xField r.mask = BitVec.allOnes 16) :
    xField h = xField r.pattern := extractLsb'_of_selects hs hm

theorem lowField_of_selects {r : Row} {h : Word} (hs : r.selects h = true) (hm : lowField r.mask = BitVec.allOnes 8) :
    lowField h = lowField r.pattern := extractLsb'_of_selects hs hm

/-- A selected header is made of its row's opcode and D and its own F, X and low byte: no other bit is free (R63, R67). -/
theorem header_eq_of_selects {r : Row} {h : Word} (hs : r.selects h = true) :
    headerOf r.opcode (fField h) (dField r.pattern) (xField h) (lowField h) = h := by
  have hmask : r.mask.getLsbD 26 = true ∧ r.mask.getLsbD 25 = true ∧ r.mask.getLsbD 24 = true := by cases r <;> decide
  have hpattern : r.pattern.getLsbD 25 = false ∧ r.pattern.getLsbD 24 = false := by cases r <;> decide
  obtain ⟨h26, h25, h24⟩ := hmask
  have hD : dField h = dField r.pattern := bit_of_selects hs h26
  rw [← opField_pattern, ← opField_of_selects hs, ← hD]
  exact headerOf_fields h ((bit_of_selects hs h25).trans hpattern.1) ((bit_of_selects hs h24).trans hpattern.2)

/-- ROW is all of X that READ_FB's row leaves free (R63, R67). -/
theorem rowField_setWidth {h : Word} (hrest : h.extractLsb' 11 17 = 0) : (rowField h).setWidth 16 = xField h := by
  refine BitVec.eq_of_getLsbD_eq fun i hi => ?_
  rcases Nat.lt_or_ge i 3 with h3 | h3
  · simp [rowField, xField, hi, h3]
  · have hzero : h.getLsbD (8 + i) = false := by
      have hbit := congrArg (fun f => f.getLsbD (i - 3)) hrest
      simpa [show i - 3 < 17 by omega, show 11 + (i - 3) = 8 + i by omega] using hbit
    simp [rowField, xField, h3, hzero]

/-- LEN is the length of a payload that fits (R63, R68). -/
theorem lenField_payload {p : Packet} (hp : p.payload.length = (lowField p.header).toNat) :
    lenField p.payload = lowField p.header := by
  rw [lenField, hp, BitVec.ofNat_toNat, BitVec.setWidth_eq]

theorem Packet.eq_of_parts {p q : Packet} (hh : p.header = q.header) (hi : p.interval = q.interval)
    (hp : p.payload = q.payload) : p = q := by
  obtain ⟨h, iv, pl⟩ := p
  subst hh hi hp
  rfl

/-- Encoding the command that a selected header and fitting parts give writes that header (R63-R65). -/
theorem encode_command_header {r : Row} {p : Packet} (hs : r.selects p.header = true) (hp : partsFit p = true) (iv : Word) :
    (encode (r.command p iv)).header = p.header := by
  refine Eq.trans ?_ (header_eq_of_selects hs)
  obtain ⟨hop, hrest⟩ := (selects_iff r p.header).mp hs
  have hlen (ht : r.opcode = 0x4 ∨ r.opcode = 0x5 ∨ r.opcode = 0x6) : lenField p.payload = lowField p.header :=
    lenField_payload (payload_length_of_partsFit hp (by rwa [hop]))
  cases r with
  | clear | pollTicker | stopTicker =>
    rw [fField_of_selects hs (by decide), xField_of_selects hs (by decide), lowField_of_selects hs (by decide)]; rfl
  | setPixel => rfl
  | getPixel => rw [fField_of_selects hs (by decide)]; rfl
  | pixelLength | startTicker => rw [xField_of_selects hs (by decide), ← hlen (by decide)]; rfl
  | printText | startTickerAt => rw [← hlen (by decide)]; rfl
  | readFb => rw [fField_of_selects hs (by decide), ← rowField_setWidth hrest]; rfl
  | readStatus => rw [fField_of_selects hs (by decide), xField_of_selects hs (by decide)]; rfl

theorem encode_command_interval {r : Row} {p : Packet} (hop : opField p.header = r.opcode) (hp : partsFit p = true) :
    (encode (r.command p (p.interval.getD 0))).interval = p.interval := by
  cases r with
  | startTicker | startTickerAt =>
    obtain ⟨w, hw⟩ := exists_interval_of_partsFit hp hop
    rw [hw]; rfl
  | _ => exact (interval_eq_none_of_partsFit hp (by rw [hop]; decide)).symm

theorem encode_command_payload {r : Row} {p : Packet} (hop : opField p.header = r.opcode) (hp : partsFit p = true)
    (iv : Word) : (encode (r.command p iv)).payload = p.payload := by
  cases r with
  | pixelLength | printText | startTicker | startTickerAt => rfl
  | _ => exact (payload_eq_nil_of_partsFit hp (by rw [hop]; decide)).symm

/-- Settles O3: header, interval word and payload are each what the decoded command's packet has. -/
theorem encodeOfDecodeIsThePacket : Obligations.EncodeOfDecodeIsThePacket := by
  intro p i hd
  refine ⟨decodePacket_wellFormed hd, ?_⟩
  obtain ⟨r, hs, hp, rfl⟩ := decodePacket_ok hd
  obtain ⟨hop, -⟩ := (selects_iff r p.header).mp hs
  exact Packet.eq_of_parts (encode_command_header hs hp _) (encode_command_interval hop hp) (encode_command_payload hop hp _)

/-! ### Framing on a byte link (R62) -/

@[simp] theorem wordBytes_length (w : Word) : (wordBytes w).length = 4 := rfl

/-- A packet whose parts fit has the length its header gives it (R62). -/
theorem packetBytes_length {p : Packet} (hp : partsFit p = true) : (packetBytes p).length = linkLength p.header := by
  obtain ⟨hinterval, hlength⟩ := (partsFit_iff p).mp hp
  rw [linkLength, ← hinterval, ← hlength, packetBytes]
  cases p.interval <;> simp
  omega

/-- The first four bytes of a framed packet are its header. -/
theorem header_of_frame {b0 b1 b2 b3 : Byte} {rest left : List Byte} {p : Packet}
    (hf : frame (b0 :: b1 :: b2 :: b3 :: rest) = some (p, left)) : p.header = wordOfBytes b0 b1 b2 b3 := by
  obtain ⟨hbytes, -⟩ := frame_some hf
  have hfour : [b0, b1, b2, b3] = wordBytes p.header := by
    have htake := congrArg (List.take 4) hbytes
    rwa [packetBytes, List.append_assoc, List.append_assoc, List.take_append_of_le_length (by simp)] at htake
  simp only [wordBytes, List.cons.injEq, and_true] at hfour
  obtain ⟨rfl, rfl, rfl, rfl⟩ := hfour
  exact (wordOfBytes_wordBytes _).symm

/-- Four bytes or more start with a word. -/
theorem exists_wordBytes_append {bs : List Byte} (h : 4 ≤ bs.length) : ∃ w rest, bs = wordBytes w ++ rest := by
  match bs, h with
  | b0 :: b1 :: b2 :: b3 :: rest, _ => exact ⟨wordOfBytes b0 b1 b2 b3, rest, by rw [wordBytes_wordOfBytes]; rfl⟩

/-- Where the bytes that a header asks for are there, they are those of a packet whose parts fit (R62). -/
theorem exists_packetBytes_append {h : Word} {rest : List Byte} (hl : linkLength h ≤ 4 + rest.length) :
    ∃ p left, p.header = h ∧ partsFit p = true ∧ wordBytes h ++ rest = packetBytes p ++ left := by
  unfold linkLength at hl
  split_ifs at hl with hi
  · obtain ⟨w, bs, rfl⟩ := exists_wordBytes_append (bs := rest) (by omega)
    rw [List.length_append, wordBytes_length] at hl
    refine ⟨⟨h, some w, bs.take (payloadLength h)⟩, bs.drop (payloadLength h), rfl, ?_, ?_⟩
    · simp [partsFit_iff, hi]; omega
    · simp [packetBytes]
  · refine ⟨⟨h, none, rest.take (payloadLength h)⟩, rest.drop (payloadLength h), rfl, ?_, ?_⟩
    · simp [partsFit_iff, hi]; omega
    · simp [packetBytes]

/-- A packet is cut off, whole, as soon as the bytes that its header asks for are there (R62). -/
theorem exists_frame_of_linkLength_le {h : Word} {rest : List Byte} (hl : linkLength h ≤ 4 + rest.length) :
    ∃ p, frame (wordBytes h ++ rest) = some (p, (wordBytes h ++ rest).drop (linkLength h)) ∧
      packetBytes p = (wordBytes h ++ rest).take (linkLength h) := by
  obtain ⟨p, left, rfl, hp, hbytes⟩ := exists_packetBytes_append hl
  rw [hbytes, ← packetBytes_length hp, List.drop_left, List.take_left]
  exact ⟨p, frame_packetBytes p left hp, rfl⟩

/-- A framed packet's bytes, as many as its header asks for, are there (R62). -/
theorem linkLength_le_of_frame {bs left : List Byte} {p : Packet} (hf : frame bs = some (p, left)) :
    linkLength p.header ≤ bs.length := by
  obtain ⟨rfl, hp⟩ := frame_some hf
  rw [List.length_append, packetBytes_length hp]
  exact Nat.le_add_right _ _

/-- No packet is cut off before the bytes that its header asks for are there (R62). -/
theorem frame_eq_none_of_lt_linkLength {b0 b1 b2 b3 : Byte} {rest : List Byte}
    (hl : 4 + rest.length < linkLength (wordOfBytes b0 b1 b2 b3)) : frame (b0 :: b1 :: b2 :: b3 :: rest) = none := by
  by_contra hne
  obtain ⟨⟨p, left⟩, hf⟩ := Option.ne_none_iff_exists'.mp hne
  have hle := linkLength_le_of_frame hf
  simp only [header_of_frame hf, List.length_cons] at hle
  omega

/-- Fewer than four bytes are no packet: a framed packet has its header (R60). -/
theorem frame_eq_none_of_length_lt {bs : List Byte} (h : bs.length < 4) : frame bs = none := by
  by_contra hne
  obtain ⟨⟨p, left⟩, hf⟩ := Option.ne_none_iff_exists'.mp hne
  have hle := linkLength_le_of_frame hf
  rw [linkLength] at hle
  omega

/-- A packet's length on the link, opcode by opcode as R62 lists it. -/
theorem linkLength_eq (h : Word) : linkLength h =
    if opField h = 0x6 then 4 + 4 + (lowField h).toNat
    else if opField h = 0x4 ∨ opField h = 0x5 then 4 + (lowField h).toNat
    else 4 := by
  simp only [linkLength, payloadLength, hasInterval_iff, hasText_iff]
  split_ifs <;> grind

/-- Bytes that are rejected frame the packet that is rejected (R62). -/
theorem exists_frame_of_rejected {bs rest : List Byte} {c : Cause} (h : decodeBytes bs = .rejected c rest) :
    ∃ p, frame bs = some (p, rest) := by
  unfold decodeBytes at h
  split at h
  next => cases h
  next p r hf =>
    split at h
    next => cases h
    next => cases h; exact ⟨p, hf⟩

/-- Settles O5: the length is the one of a packet whose parts fit the header, and framing cuts off exactly that packet. -/
theorem linkLengthFromHeaderAlone : Obligations.LinkLengthFromHeaderAlone := by
  refine ⟨fun b0 b1 b2 b3 rest => ?_, fun bs => frame_eq_none_of_length_lt, fun bs rest c => exists_frame_of_rejected⟩
  simp only [← linkLength_eq]
  refine ⟨fun hl => ?_, frame_eq_none_of_lt_linkLength⟩
  have hframe := exists_frame_of_linkLength_le hl
  rwa [wordBytes_wordOfBytes] at hframe

/-! ### Responses (R61, R150) -/

/-- A word's bytes spell it, most significant first (R42). -/
theorem toNat_eq_of_wordBytes {w : Word} {b0 b1 b2 b3 : Byte} (h : wordBytes w = [b0, b1, b2, b3]) :
    w.toNat = 2 ^ 24 * b0.toNat + 2 ^ 16 * b1.toNat + 2 ^ 8 * b2.toNat + b3.toNat := by
  simp only [wordBytes, List.cons.injEq, and_true] at h
  obtain ⟨rfl, rfl, rfl, rfl⟩ := h
  have hw := w.isLt
  simp only [BitVec.extractLsb'_toNat, Nat.shiftRight_eq_div_pow]
  omega

/-- Settles O10: the five bytes are the code and VALUE's own four. -/
theorem responseIsFiveLinkBytes : Obligations.ResponseIsFiveLinkBytes :=
  ⟨fun _ => ⟨_, _, _, _, rfl, toNat_eq_of_wordBytes rfl⟩, rfl, rfl, rfl, rfl, rfl⟩

namespace Machine

/-! ### What the assembler accepts (R70, R71) -/

theorem operandMs_eq_some {ms : Int} {f : Word} :
    operandMs ms = some f ↔ (0 ≤ ms ∧ ms ≤ 2 ^ 32 - 1) ∧ (f.toNat : Int) = ms :=
  operandField_unsigned (by decide)

theorem operandField_row_eq_some {row : Int} {f : BitVec 3} :
    operandField 3 0 7 row = some f ↔ (0 ≤ row ∧ row ≤ 7) ∧ (f.toNat : Int) = row :=
  operandField_unsigned (by decide)

theorem operandField_byte_eq_some {v : Int} {f : BitVec 8} :
    operandField 8 0 255 v = some f ↔ (0 ≤ v ∧ v ≤ 255) ∧ (f.toNat : Int) = v :=
  operandField_unsigned (by decide)

/-- Settles O12: a command's operands are accepted one by one, so each form's conditions are those of its operands. -/
theorem assemblerFormsLimitsAndFields : Obligations.AssemblerFormsLimitsAndFields := by
  intro x y en ms off row seg sel text mb i
  and_intros
  all_goals simp only [assemble, Option.bind_eq_bind, Option.bind_eq_some_iff, operandBit_eq_some, operandX_eq_some,
    operandY_eq_some, operandMb_eq_some, operandText_eq_some, operandMs_eq_some, operandField_row_eq_some,
    operandField_byte_eq_some]
  -- Both sides now name the same limits and fields, in another order.
  all_goals grind

theorem textFits_iff {text : List Byte} : textFits text = true ↔ text.length ≤ 255 := decide_eq_true_iff

/-- The assembler accepts only texts that a packet can carry (R60, R70). -/
theorem assemble_wellFormed {a : AsmCommand} {i : Instr} (h : assemble a = some i) : i.wellFormed = true := by
  cases a with
  | tstart text ms off mb =>
    cases off <;>
      simp only [assemble, Option.bind_eq_bind, Option.bind_eq_some_iff, operandText_eq_some] at h <;>
      grind [Instr.wellFormed, textFits_iff]
  | _ =>
    simp only [assemble, Option.bind_eq_bind, Option.bind_eq_some_iff, operandText_eq_some] at h
    grind [Instr.wellFormed, textFits_iff]

/-- Settles O11: an accepted command is well formed, so its packet decodes to it. -/
theorem assembledCommandsDecode : Obligations.AssembledCommandsDecode := fun _ _ h =>
  ⟨assemble_wellFormed h, decodePacket_encode (assemble_wellFormed h)⟩

/-- Settles O1, by evaluating the assembler and the decoder on the rule's twelve lines. -/
theorem specHeadersAssembleAndDecode : Obligations.SpecHeadersAssembleAndDecode := by
  unfold Obligations.SpecHeadersAssembleAndDecode
  decide

/-- Settles O14: each pseudo-instruction's arm of the assembler is its expansion's. -/
theorem pseudoInstructionsExpand : Obligations.PseudoInstructionsExpand :=
  fun _ _ _ _ _ _ => ⟨rfl, rfl, rfl⟩

/-! ### How a line is read (R70) -/

theorem not_isWordChar_of_endsOperand {cs : List Char} (h : EndsOperand cs) :
    cs = [] ∨ ∃ b t, cs = b :: t ∧ isWordChar b = false := by
  obtain rfl | ⟨c, t, rfl, rfl | rfl⟩ := h
  · exact .inl rfl
  · exact .inr ⟨_, _, rfl, by decide⟩
  · exact .inr ⟨_, _, rfl, by decide⟩

/-- What stands behind the operands of a line: nothing, or a blank and a comment. -/
def commentChars (comment : Option (List Char)) : List Char := comment.elim [] fun c => ' ' :: ';' :: c

/-- The operands after the first, each behind its comma. -/
def operandsTail (os : List Written) : List Char := os.flatMap fun o => ',' :: ' ' :: o.chars

theorem lineChars_nil (w : List Char) (comment : Option (List Char)) :
    lineChars w [] comment = w ++ commentChars comment := by simp [lineChars, commentChars]

theorem lineChars_cons (w : List Char) (o : Written) (os : List Written) (comment : Option (List Char)) :
    lineChars w (o :: os) comment = w ++ ' ' :: (o.chars ++ (operandsTail os ++ commentChars comment)) := by
  simp [lineChars, commentChars, operandsTail]

theorem endsOperand_commentChars (comment : Option (List Char)) : EndsOperand (commentChars comment) := by
  cases comment with
  | none => exact .inl rfl
  | some c => exact .inr ⟨_, _, rfl, .inr rfl⟩

theorem endsOperand_operandsTail (os : List Written) {cs : List Char} (h : EndsOperand cs) :
    EndsOperand (operandsTail os ++ cs) := by
  cases os with
  | nil => exact h
  | cons o os => exact .inr ⟨_, _, rfl, .inl rfl⟩

/-- Characters that are read as tokens, with fuel for their own number enough. -/
def LexesInLength (cs : List Char) (toks : List Token) : Prop := ∃ k ≤ cs.length, Lexes cs toks k

theorem lexesInLength_commentChars (comment : Option (List Char)) : LexesInLength (commentChars comment) [] := by
  cases comment with
  | none => exact ⟨0, le_rfl, Lexes.nil⟩
  | some c => exact ⟨2, by simp [commentChars], (Lexes.comment c).blank⟩

theorem LexesInLength.written {cs : List Char} {toks : List Token} (w : Written) (he : EndsOperand cs)
    (h : LexesInLength cs toks) : LexesInLength (w.chars ++ cs) (w.tokens ++ toks) := by
  obtain ⟨k, hk, hl⟩ := h
  exact Lexes.written w he hk hl

/-- The tokens of the operands after the first. -/
def tailTokens (os : List Written) : List Token := os.flatMap fun o => .comma :: o.tokens

theorem LexesInLength.operandsTail {cs : List Char} {toks : List Token} (he : EndsOperand cs)
    (h : LexesInLength cs toks) (os : List Written) : LexesInLength (operandsTail os ++ cs) (tailTokens os ++ toks) := by
  induction os with
  | nil => exact h
  | cons o os ih =>
    obtain ⟨k, hk, hl⟩ := ih.written o (endsOperand_operandsTail os he)
    refine ⟨k + 1 + 1, ?_, ?_⟩
    · simp [Machine.operandsTail] at hk ⊢; omega
    · simpa [Machine.operandsTail, tailTokens] using hl.blank.comma

/-- The tokens of a line's operands. -/
def operandTokens : List Written → List Token
  | [] => []
  | o :: os => o.tokens ++ tailTokens os

/-- A capital letter and then letters, digits and dots: a word that is one token. -/
def isMnemonic : List Char → Bool
  | [] => false
  | c :: w => decide (65 ≤ c.toNat ∧ c.toNat ≤ 90) && w.all isWordChar

theorem LexesInLength.mnemonic {w cs : List Char} {toks : List Token} (hw : isMnemonic w = true) (he : EndsOperand cs)
    (h : LexesInLength cs toks) : LexesInLength (w ++ cs) (.word w :: toks) := by
  obtain ⟨k, hk, hl⟩ := h
  cases w with
  | nil => cases hw
  | cons c w =>
    simp only [isMnemonic, Bool.and_eq_true, decide_eq_true_iff] at hw
    obtain ⟨hc, hw⟩ := hw
    have hdigit : decDigit c = none := if_neg (by omega)
    have hletter : isWordChar c = true := by simp [isWordChar, hc]
    exact ⟨k + 1, by simp; omega,
      Lexes.word c w ⟨hdigit, hletter, by omega⟩ hw (not_isWordChar_of_endsOperand he) hl⟩

theorem lexesInLength_lineChars {w : List Char} (hw : isMnemonic w = true) (ops : List Written)
    (comment : Option (List Char)) :
    LexesInLength (lineChars w ops comment) (.word w :: operandTokens ops) := by
  have he := endsOperand_commentChars comment
  have hc := lexesInLength_commentChars comment
  cases ops with
  | nil =>
    rw [lineChars_nil]
    exact hc.mnemonic hw he
  | cons o os =>
    rw [lineChars_cons]
    obtain ⟨k, hk, hl⟩ := (hc.operandsTail he os).written o (endsOperand_operandsTail os he)
    have hblank :
        LexesInLength (' ' :: (o.chars ++ (operandsTail os ++ commentChars comment))) (operandTokens (o :: os)) :=
      ⟨k + 1, Nat.succ_le_succ hk, by simpa [operandTokens] using hl.blank⟩
    exact hblank.mnemonic hw (.inr ⟨_, _, rfl, .inr rfl⟩)

/-- A line is read as a command when its operands' tokens and its mnemonic spell that command. -/
theorem readsAs_of_command {w : List Char} {ops : List Written} {a : AsmCommand} (hw : isMnemonic w = true)
    (ha : (parseOperands (operandTokens ops)).bind (commandOf w) = some a) : readsAs w ops a := by
  intro comment
  obtain ⟨k, hk, hl⟩ := lexesInLength_lineChars hw ops comment
  obtain ⟨operands, hops, hcommand⟩ := Option.bind_eq_some_iff.mp ha
  unfold assembleLine
  rw [hl _ hk]
  cases hassemble : assemble a <;> simp only [hops, hcommand, Option.bind_some, hassemble]

theorem assembleLine_comment (c : List Char) : assembleLine (';' :: c) = .blank := by
  rw [assembleLine, Lexes.comment c _ (by simp)]

/-- Settles O13: each form's mnemonic is one token, and its operands' tokens spell the form's command. -/
theorem assemblyLinesAreReadAsWritten : Obligations.AssemblyLinesAreReadAsWritten := by
  refine ⟨fun x y n ps mb => ?_, rfl, assembleLine_comment⟩
  and_intros <;> exact readsAs_of_command (by decide) rfl

end Machine

end Sys2Proof
end

section
/-! PROOFS of the statements about the coordinate transform (40_transform.md): what it answers (R80, R81, R83), that pixels and
bits correspond one to one (R84, R86), the mirrors (R82, R85), and the worked examples (R87). -/

namespace Sys2Proof.Machine

/-! ### What Transform answers (R80, R83) -/

theorem transform_eq_some_iff {c : Cfg} {x y : Int} {off : Nat} {mask : Byte} :
    transform c x y = some (off, mask) ↔
      inDisplay c x y ∧ physOff c x y = off ∧ (1 : Byte) <<< physBit c x = mask := by
  by_cases h : inDisplay c x y
  · rw [transform_in h, Option.some.injEq, Prod.mk.injEq, and_iff_right h]
  · simp [transform_out h, h]

theorem transform_eq_none_iff {c : Cfg} {x y : Int} : transform c x y = none ↔ ¬ inDisplay c x y := by
  refine ⟨fun hnone h => ?_, transform_out⟩
  rw [transform_in h] at hnone
  cases hnone

theorem getLsbD_oneHot {b i : Nat} (hb : b < 8) : ((1 : Byte) <<< b).getLsbD i = true ↔ i = b := by
  have h := BitVec.getLsbD_twoPow (w := 8) b i
  simp only [BitVec.twoPow_eq] at h
  simp [h, hb, eq_comm]

theorem oneHot_injective {b b' : Nat} (hb : b < 8) (hb' : b' < 8) (h : (1 : Byte) <<< b = (1 : Byte) <<< b') : b = b' := by
  rw [← getLsbD_oneHot hb', ← h, getLsbD_oneHot hb]

/-- The offset in the integers of R83. -/
theorem physOff_cast {c : Cfg} {x y : Int} (h : inDisplay c x y) :
    (physOff c x y : Int) =
      (if c.my then 7 - y else y) * c.n.toNat + (if c.mxd then c.n.toNat - 1 - x / 8 else x / 8) := by
  obtain ⟨hx, hx', hy, hy'⟩ := h
  unfold displayWidth at hx'
  have hrow : (physRow c y : Int) = if c.my then 7 - y else y := by
    unfold physRow; split <;> omega
  have hseg : (physSeg c x : Int) = if c.mxd then c.n.toNat - 1 - x / 8 else x / 8 := by
    unfold physSeg; split <;> omega
  rw [physOff, Nat.cast_add, Nat.cast_mul, hrow, hseg]

/-- The bit in the integers of R83. -/
theorem physBit_eq {c : Cfg} {x : Int} (hx : 0 ≤ x) :
    physBit c x = if c.mxs then (x % 8).toNat else (7 - x % 8).toNat := by
  unfold physBit; split <;> omega

/-- Settles O15: in the display the offset is `physOff` and the mask has the bit `physBit`. -/
theorem transformSelectsOneBitOrNone : Obligations.TransformSelectsOneBitOrNone := by
  refine fun c x y => ⟨?_, fun off mask h => ?_⟩
  · rw [transform_eq_none_iff]
    unfold inDisplay displayWidth
    omega
  · obtain ⟨hd, rfl, rfl⟩ := transform_eq_some_iff.mp h
    exact ⟨physOff_lt hd, physBit c x, physBit_lt c x, fun i _ => getLsbD_oneHot (physBit_lt c x)⟩

/-- Settles O16: `physOff` and `physBit` in the integers. -/
theorem transformClosedForm : Obligations.TransformClosedForm := by
  intro c x y h
  refine ⟨_, _, transform_in h, physOff_cast h, ?_⟩
  rw [physBit_eq h.1]
  split <;> rfl

/-! ### Pixels and bits correspond one to one (R84, R86) -/

theorem transform_injective {c : Cfg} {x y x' y' : Int} (h : inDisplay c x y) (h' : inDisplay c x' y')
    (he : transform c x y = transform c x' y') : x = x' ∧ y = y' := by
  obtain ⟨-, hoff, hmask⟩ := transform_eq_some_iff.mp (he.trans (transform_in h'))
  exact phys_injective h h' hoff (oneHot_injective (physBit_lt c x) (physBit_lt c x') hmask)

theorem transform_inverseTransform {c : Cfg} {off b : Nat} (hoff : off < fbSize c) (hb : b < 8) :
    transform c (inverseTransform c off b).1 (inverseTransform c off b).2 = some (off, (1 : Byte) <<< b) := by
  obtain ⟨hd, ho, hbit⟩ := inverseTransform_inDisplay_phys hoff hb
  rw [transform_in hd, ho, hbit]

/-- The only pixel that Transform sends to a bit is the inverse's. -/
theorem eq_inverseTransform {c : Cfg} {x y : Int} {off b : Nat} (hb : b < 8)
    (h : transform c x y = some (off, (1 : Byte) <<< b)) : (x, y) = inverseTransform c off b := by
  obtain ⟨hd, hoff, -⟩ := transform_eq_some_iff.mp h
  have hlt : off < fbSize c := hoff ▸ physOff_lt hd
  have hinv := inverseTransform_inDisplay_phys hlt hb
  obtain ⟨hx, hy⟩ := transform_injective hd hinv.1 (h.trans (transform_inverseTransform hlt hb).symm)
  exact Prod.ext hx hy

/-- Settles O17: Transform has the inverse of R86 on both sides. -/
theorem transformIsABijection : Obligations.TransformIsABijection := by
  refine fun c => ⟨fun x y x' y' => transform_injective, fun x y h => ?_, fun off b hoff hb => ?_⟩
  · exact ⟨physOff c x y, physBit c x, physOff_lt h, physBit_lt c x, transform_in h,
      (eq_inverseTransform (physBit_lt c x) (transform_in h)).symm⟩
  · exact ⟨(inverseTransform_inDisplay_phys hoff hb).1, transform_inverseTransform hoff hb,
      fun x y => eq_inverseTransform hb⟩

/-! ### The mirrors (R82, R85) -/

/-- The x coordinate with its column mirrored in the segment. -/
def mirrorCol (x : Int) : Int := 8 * (x / 8) + (7 - x % 8)

/-- The x coordinate with its segment mirrored in the display. -/
def mirrorSeg (c : Cfg) (x : Int) : Int := 8 * (c.n.toNat - 1 - x / 8) + x % 8

theorem mirrorCol_mirrorCol (x : Int) : mirrorCol (mirrorCol x) = x := by
  unfold mirrorCol; omega

theorem mirrorSeg_mirrorSeg (c : Cfg) (x : Int) : mirrorSeg c (mirrorSeg c x) = x := by
  unfold mirrorSeg; omega

theorem inDisplay_mirrorCol {c : Cfg} {x y : Int} (h : inDisplay c x y) : inDisplay c (mirrorCol x) y := by
  unfold inDisplay displayWidth at *
  unfold mirrorCol; omega

theorem inDisplay_mirrorSeg {c : Cfg} {x y : Int} (h : inDisplay c x y) : inDisplay c (mirrorSeg c x) y := by
  unfold inDisplay displayWidth at *
  unfold mirrorSeg; omega

theorem inDisplay_mirrorRow {c : Cfg} {x y : Int} (h : inDisplay c x y) : inDisplay c x (7 - y) := by
  unfold inDisplay at *; omega

/-- Pixels at the same row, segment and bit have the same Transform. -/
theorem transform_eq_transform {c c' : Cfg} {x y x' y' : Int} (hn : c.n = c'.n) (h : inDisplay c x y)
    (h' : inDisplay c' x' y') (hrow : physRow c y = physRow c' y') (hseg : physSeg c x = physSeg c' x')
    (hbit : physBit c x = physBit c' x') : transform c x y = transform c' x' y' := by
  rw [transform_in h, transform_in h', physOff, physOff, hrow, hseg, hbit, hn]

theorem transform_toggle_mxs {c : Cfg} {x y : Int} (h : inDisplay c x y) :
    transform { c with mxs := !c.mxs } x y = transform c (mirrorCol x) y := by
  have hd := inDisplay_mirrorCol h
  have hseg : x.toNat / 8 = (mirrorCol x).toNat / 8 := by unfold mirrorCol; omega
  have hcol : (mirrorCol x).toNat % 8 = 7 - x.toNat % 8 := by have := h.1; unfold mirrorCol; omega
  have hle : x.toNat % 8 ≤ 7 := by omega
  refine transform_eq_transform rfl h hd rfl ?_ ?_
  · simp only [physSeg, hseg]
  · simp only [physBit, hcol, Nat.sub_sub_self hle]
    cases c.mxs <;> rfl

theorem transform_toggle_mxd {c : Cfg} {x y : Int} (h : inDisplay c x y) :
    transform { c with mxd := !c.mxd } x y = transform c (mirrorSeg c x) y := by
  have hd := inDisplay_mirrorSeg h
  have hx := h.1
  have hlt : x.toNat / 8 < c.n.toNat := by have := h.2.1; unfold displayWidth at this; omega
  have hle : x.toNat / 8 ≤ c.n.toNat - 1 := by omega
  have hseg : (mirrorSeg c x).toNat / 8 = c.n.toNat - 1 - x.toNat / 8 := by unfold mirrorSeg; omega
  have hcol : x.toNat % 8 = (mirrorSeg c x).toNat % 8 := by unfold mirrorSeg; omega
  refine transform_eq_transform rfl h hd rfl ?_ ?_
  · simp only [physSeg, hseg, Nat.sub_sub_self hle]
    cases c.mxd <;> rfl
  · simp only [physBit, hcol]

theorem transform_toggle_my {c : Cfg} {x y : Int} (h : inDisplay c x y) :
    transform { c with my := !c.my } x y = transform c x (7 - y) := by
  have ⟨_, _, hy, hy'⟩ := h
  have hle : y.toNat ≤ 7 := by omega
  have hrow : (7 - y).toNat = 7 - y.toNat := by omega
  refine transform_eq_transform rfl h (inDisplay_mirrorRow h) ?_ rfl rfl
  simp only [physRow, hrow, Nat.sub_sub_self hle]
  cases c.my <;> rfl

/-- Settles O18: toggling a flag mirrors one coordinate; the second half is the first at the mirrored pixel. -/
theorem mirrorsAreInvolutions : Obligations.MirrorsAreInvolutions := by
  refine fun c x y h =>
    ⟨⟨transform_toggle_mxs h, transform_toggle_mxd h, transform_toggle_my h⟩, ?_, ?_, ?_⟩
  · have hback := transform_toggle_mxs (inDisplay_mirrorCol h)
    rwa [mirrorCol_mirrorCol] at hback
  · have hback := transform_toggle_mxd (inDisplay_mirrorSeg h)
    rwa [mirrorSeg_mirrorSeg] at hback
  · have hback := transform_toggle_my (inDisplay_mirrorRow h)
    rwa [sub_sub_cancel] at hback

/-! ### The worked examples (R87) -/

/-- Settles O19: eight results by evaluation, and three pixels that are outside every display. -/
theorem transformWorkedExamples : Obligations.TransformWorkedExamples := by
  refine ⟨by decide, by decide, by decide, by decide, by decide, by decide, by decide, by decide, fun c => ?_⟩
  exact ⟨transform_out (by simp), transform_out (by simp), transform_out (by simp)⟩

end Sys2Proof.Machine
end

section
/-! PROOFS of the statements about the frame-buffer commands (41_framebuffer.md): CLEAR (R91), the pixel commands and their laws
(R90, R92, R93, R94), READ_FB (R95), and the flush (R96). -/

namespace Sys2Proof.Machine

/-! ### What CLEAR and the pixel commands answer (R91, R92, R93) -/

theorem exec_clear (s : State) : exec .clear s = .next ((s.setFb (s.fb.clear s.cfg)).respond 0) := rfl

theorem exec_setPixel (en : Bool) (x : BitVec 16) (y : BitVec 8) (s : State) :
    exec (.setPixel en x y) s =
      .next ((s.setFb (setPixel s.cfg s.resets s.fb x.toInt y.toInt en)).respond 0) := rfl

theorem exec_getPixel (x : BitVec 16) (y : BitVec 8) (s : State) :
    exec (.getPixel x y) s = .next (s.respond (if s.pixel x.toInt y.toInt then 1 else 0)) := by
  rw [← wordOfBool_eq]
  rfl

/-- A command that only replaces the frame buffer and responds keeps everything else. -/
theorem keepsAllButFb_setFb_respond (s : State) (m : Memory) (v : Word) : KeepsAllButFb s ((s.setFb m).respond v) :=
  ⟨rfl, rfl, rfl, rfl, rfl, rfl, rfl⟩

/-- Settles O20: clearing writes 0 to exactly the offsets below 8·N. -/
theorem clearZeroesEveryByte : Obligations.ClearZeroesEveryByte := fun s =>
  ⟨_, exec_clear s, rfl, keepsAllButFb_setFb_respond s _ 0, Memory.byte_clear s.cfg s.resets s.fb⟩

/-! ### A pixel write on the bytes (R90) -/

/-- Out of range, a pixel write changes no byte (R81). -/
theorem byte_setPixel_of_transform_none {c : Cfg} {x y : Int} (h : transform c x y = none) (k : Nat) (m : Memory)
    (en : Bool) (a : Nat) : (setPixel c k m x y en).byte k a = m.byte k a := by
  rw [setPixel_out (transform_eq_none_iff.mp h)]

/-- In range, a pixel write stores one byte at the offset that Transform selects (R46). -/
theorem byte_setPixel_of_transform_some {c : Cfg} {x y : Int} {off : Nat} {mask : Byte}
    (h : transform c x y = some (off, mask)) (k : Nat) (m : Memory) (en : Bool) :
    (setPixel c k m x y en).byte k off = if en then m.byte k off ||| mask else m.byte k off &&& ~~~mask := by
  obtain ⟨hd, rfl, rfl⟩ := transform_eq_some_iff.mp h
  rw [setPixel_in hd, Memory.byte_set_same, pixelByte]

/-- The byte that a pixel write stores differs from the old one in the one bit of the mask, which ends as `en`. -/
theorem getLsbD_byte_setPixel {c : Cfg} {x y : Int} {off : Nat} {mask : Byte}
    (h : transform c x y = some (off, mask)) (k : Nat) (m : Memory) (en : Bool) :
    ∃ b, b < 8 ∧ mask = (1 : Byte) <<< b ∧ ∀ i, i < 8 →
      ((setPixel c k m x y en).byte k off).getLsbD i = if i = b then en else (m.byte k off).getLsbD i := by
  obtain ⟨hd, rfl, rfl⟩ := transform_eq_some_iff.mp h
  refine ⟨physBit c x, physBit_lt c x, rfl, fun i hi => ?_⟩
  rw [setPixel_in hd, Memory.byte_set_same, pixelByte_getLsbD _ _ _ (physBit_lt c x) hi]

/-- A pixel write changes no byte but the one that Transform selects. -/
theorem byte_setPixel_of_ne {c : Cfg} {x y : Int} {off : Nat} {mask : Byte} (h : transform c x y = some (off, mask))
    (k : Nat) (m : Memory) (en : Bool) {a : Nat} (ha : a ≠ off) :
    (setPixel c k m x y en).byte k a = m.byte k a := by
  refine byte_setPixel c k m x y en a fun off' mask' h' => ?_
  cases h.symm.trans h'
  exact ha

/-- Settles O21: the write on a frame buffer, case by case of Transform; SET_PIXEL is that write on the state's own. -/
theorem setPixelWritesAtMostOneBit : Obligations.SetPixelWritesAtMostOneBit := by
  suffices hbytes : _ from ⟨hbytes, fun en x y s => ⟨_, exec_setPixel en x y s, rfl,
    keepsAllButFb_setFb_respond s _ 0, hbytes s.cfg s.resets s.fb x.toInt y.toInt en⟩⟩
  refine fun c k m x y en => ⟨fun h => byte_setPixel_of_transform_none h k m en, fun off mask h => ?_⟩
  exact ⟨byte_setPixel_of_transform_some h k m en, getLsbD_byte_setPixel h k m en,
    fun a => byte_setPixel_of_ne h k m en⟩

/-! ### Reading pixels (R93, R94) -/

theorem pixel_of_transform_none {s : State} {x y : Int} (h : transform s.cfg x y = none) : s.pixel x y = false :=
  pixel_out (transform_eq_none_iff.mp h) s.resets s.fb

theorem pixel_of_transform_some {s : State} {x y : Int} {off : Nat} {mask : Byte}
    (h : transform s.cfg x y = some (off, mask)) : s.pixel x y = (s.byte off &&& mask != 0) := by
  rw [State.pixel_eq, pixel, h]
  rfl

/-- Settles O22: the pixel read, case by case of Transform. -/
theorem getPixelRespondsTheSelectedBit : Obligations.GetPixelRespondsTheSelectedBit := by
  refine fun x y s => ⟨fun h => ?_, fun off mask h => ?_⟩
  · rw [exec_getPixel, pixel_of_transform_none h]
    rfl
  · rw [exec_getPixel, pixel_of_transform_some h]
    simp only [bne_iff_ne]

/-- SET_PIXEL in range leaves `en` in its own pixel; every other pixel, and with an operand out of range every pixel, is as
before. -/
theorem pixel_of_exec_setPixel {en : Bool} {x : BitVec 16} {y : BitVec 8} {s t : State}
    (h : exec (.setPixel en x y) s = .next t) (x' : BitVec 16) (y' : BitVec 8) :
    t.pixel x'.toInt y'.toInt =
      if x' = x ∧ y' = y ∧ inDisplay s.cfg x.toInt y.toInt then en else s.pixel x'.toInt y'.toInt := by
  cases h
  simp only [← BitVec.toInt_inj]
  exact pixel_setPixel s.cfg s.resets s.fb x.toInt y.toInt en x'.toInt y'.toInt

/-- Settles O23: a pixel write sets its own pixel, leaves every other pixel alone, and out of range does nothing. -/
theorem pixelUnitLaws : Obligations.PixelUnitLaws := by
  refine fun x y s hd => ⟨fun en => ⟨_, exec_setPixel en x y s, ?_⟩,
    fun en x' y' _ hne => ⟨_, _, exec_setPixel en x' y' s, exec_getPixel x y s, ?_⟩, fun en x' y' hout => ?_⟩
  · have hown : x = x ∧ y = y ∧ inDisplay s.cfg x.toInt y.toInt := ⟨rfl, rfl, hd⟩
    rw [exec_getPixel, pixel_of_exec_setPixel (exec_setPixel en x y s), if_pos hown]
  · have hother : ¬ (x = x' ∧ y = y' ∧ inDisplay s.cfg x'.toInt y'.toInt) := by
      rintro ⟨rfl, rfl, -⟩
      exact hne rfl
    rw [exec_getPixel, pixel_of_exec_setPixel (exec_setPixel en x' y' s), if_neg hother]
  · exact ⟨_, exec_setPixel en x' y' s, byte_setPixel_of_transform_none (transform_out hout) s.resets s.fb en⟩

/-! ### Reading bytes (R95) -/

/-- The byte of a row and a segment is one of the frame buffer's 8·N (R25). -/
theorem row_seg_offset_lt (row : BitVec 3) {seg n : Nat} (h : seg < n) : row.toNat * n + seg < 8 * n :=
  calc row.toNat * n + seg < (row.toNat + 1) * n := by rw [Nat.add_one_mul]; omega
    _ ≤ 8 * n := Nat.mul_le_mul_right n row.isLt

/-- Settles O24: the two cases of READ_FB, and the value of a byte as a word. -/
theorem readFbRespondsThePhysicalByte : Obligations.ReadFbRespondsThePhysicalByte := by
  refine fun row seg s => ⟨fun h => ?_, fun h => exec_readFb_of_ge h row⟩
  exact ⟨row_seg_offset_lt row h, _, exec_readFb_of_lt h row, BitVec.toNat_setWidth_of_le (by decide)⟩

/-! ### The flush (R96) -/

/-- The READ_FB command that reads byte `a` of a frame buffer of configuration `c` (R95). -/
def readFbAt (c : Cfg) (a : Nat) : Instr := .readFb (BitVec.ofNat 3 (a / c.n.toNat)) (BitVec.ofNat 8 (a % c.n.toNat))

/-- The response that reads byte `a` of a state. -/
def byteResponse (s : State) (a : Nat) : Response := ⟨.ok, (s.byte a).setWidth 32⟩

/-- Counting through `r` rows of `n` segments, row by row, counts through the numbers below `r·n`. -/
theorem range_flatMap_rows (r n : Nat) :
    ((List.range r).flatMap fun row => (List.range n).map fun seg => row * n + seg) = List.range (r * n) := by
  induction r with
  | zero => simp
  | succ r ih => rw [List.range_succ, List.flatMap_append, ih, List.flatMap_singleton, Nat.add_one_mul, List.range_add]

/-- The flush reads the offsets 0..8·N-1 in rising order. -/
theorem flushCommands_eq (c : Cfg) : flushCommands c = (List.range (8 * c.n.toNat)).map (readFbAt c) := by
  rw [← range_flatMap_rows, List.map_flatMap, flushCommands]
  refine List.flatMap_congr fun row _ => ?_
  rw [List.map_map]
  refine List.map_congr_left fun seg hseg => ?_
  have hlt : seg < c.n.toNat := List.mem_range.mp hseg
  have hrow : (row * c.n.toNat + seg) / c.n.toNat = row := by
    rw [Nat.mul_comm, Nat.mul_add_div (by omega), Nat.div_eq_of_lt hlt, Nat.add_zero]
  have hsegm : (row * c.n.toNat + seg) % c.n.toNat = seg := by rw [Nat.mul_add_mod_self_right, Nat.mod_eq_of_lt hlt]
  simp only [Function.comp_apply, readFbAt, hrow, hsegm]

/-- One command of the flush responds its byte. -/
theorem exec_readFbAt {s : State} {a : Nat} (ha : a < 8 * s.cfg.n.toNat) :
    exec (readFbAt s.cfg a) s = .next (s.answer (byteResponse s a)) := by
  have hpos : 0 < s.cfg.n.toNat := by omega
  have hmod : a % s.cfg.n.toNat < s.cfg.n.toNat := Nat.mod_lt a hpos
  have hrow : (BitVec.ofNat 3 (a / s.cfg.n.toNat)).toNat = a / s.cfg.n.toNat :=
    Nat.mod_eq_of_lt ((Nat.div_lt_iff_lt_mul hpos).mpr ha)
  have hseg : (BitVec.ofNat 8 (a % s.cfg.n.toNat)).toNat = a % s.cfg.n.toNat :=
    Nat.mod_eq_of_lt (hmod.trans s.cfg.n.isLt)
  rw [readFbAt, exec_readFb_of_lt (hseg.trans_lt hmod), hrow, hseg, Nat.div_add_mod']
  rfl

/-- Reads of existing bytes, one after the other at any times, respond those bytes in order and change nothing but NOW. -/
theorem runCommands_readFbAt (offs : List Nat) (nows : List Word) (s : State) (hlen : nows.length = offs.length)
    (hoffs : ∀ a ∈ offs, a < 8 * s.cfg.n.toNat) :
    ∃ now, runCommands (nows.zip (offs.map (readFbAt s.cfg))) s =
      .next { s.atTime now with responses := s.responses ++ offs.map (byteResponse s) } := by
  induction offs generalizing nows s with
  | nil => exact ⟨s.now, by simp [runCommands, State.atTime]⟩
  | cons a offs ih =>
    obtain ⟨now, nows, rfl⟩ := List.exists_cons_of_length_eq_add_one hlen
    obtain ⟨ha, hrest⟩ := List.forall_mem_cons.mp hoffs
    have hfirst : exec (readFbAt s.cfg a) (s.atTime now) = .next ((s.atTime now).answer (byteResponse s a)) :=
      exec_readFbAt (s := s.atTime now) ha
    obtain ⟨last, hrun⟩ := ih nows ((s.atTime now).answer (byteResponse s a)) (Nat.succ.inj hlen) hrest
    refine ⟨last, (runCommands_cons_of_exec hfirst _).trans (hrun.trans ?_)⟩
    rw [State.answer_responses, List.append_assoc]
    rfl

/-- Settles O25: the flush is the reads of the offsets 0..8·N-1. -/
theorem flushReadsTheFrameInOrder : Obligations.FlushReadsTheFrameInOrder := by
  intro s nows hlen
  obtain ⟨now, hrun⟩ := runCommands_readFbAt (List.range (8 * s.cfg.n.toNat)) nows s
    (hlen.trans List.length_range.symm) fun a => List.mem_range.mp
  rw [← flushCommands_eq] at hrun
  exact ⟨by rw [flushCommands_eq, List.length_map, List.length_range], _, hrun, rfl, rfl, rfl, rfl, rfl⟩

end Sys2Proof.Machine
end

section
/-! PROOFS of the statements about the glyph decoder (42_glyph_decode.md): its loop step (R104-R106, R108), decoding without
`mb` (R109), the length of what it gives (R107) and the worked examples (R110). -/

namespace Sys2Proof.Machine

/-! ### A byte decoded alone (R106) -/

theorem decodeByte_eq_singleton {v : Byte} {g : GlyphIndex} (hlo : 32 ≤ v.toNat) (hhi : v.toNat ≤ 134)
    (hg : g.val = v.toNat - 32) : decodeByte v = [g] := by
  rw [decodeByte, dif_pos ⟨hlo, hhi⟩, List.singleton_inj]
  exact Fin.ext hg.symm

theorem decodeByte_eq_nil {v : Byte} (hv : v.toNat < 32 ∨ 134 < v.toNat) : decodeByte v = [] :=
  dif_neg (by omega)

/-! ### The branches of one loop step (R105, R108) -/

@[simp] theorem decodeText_nil (p : Params) (mb : Bool) : decodeText p mb [] = [] := by rw [decodeText]

@[simp] theorem decodeText_singleton (p : Params) (mb : Bool) (v : Byte) : decodeText p mb [v] = decodeByte v := by
  rw [decodeText]

theorem decodeText_of_symbolOf {p : Params} {v c : Byte} {y : Symbol} (hy : symbolOf p v c = some y) (tail : List Byte) :
    decodeText p true (v :: c :: tail) = p.accentIndex.get y :: decodeText p true tail := by
  simp [decodeText, hy]

theorem decodeText_of_dropPair {p : Params} {v c : Byte} (hnone : symbolOf p v c = none) (hdrop : p.mbFallback = .dropPair)
    (hlead : isLead p v = true) (tail : List Byte) : decodeText p true (v :: c :: tail) = decodeText p true tail := by
  simp [decodeText, hnone, hdrop, hlead]

/-- One byte is used when nothing is to be done with the two: there is no next byte, no `mb`, or neither a pair nor a
pair to drop. -/
theorem decodeText_cons_alone {p : Params} {mb : Bool} {v : Byte} {rest : List Byte}
    (halone : ∀ c tail, rest = c :: tail → mb = true →
      symbolOf p v c = none ∧ (p.mbFallback = .redecode ∨ isLead p v = false)) :
    decodeText p mb (v :: rest) = decodeByte v ++ decodeText p mb rest := by
  cases rest with
  | nil => simp
  | cons c tail =>
    cases mb with
    | false => simp [decodeText]
    | true =>
      obtain ⟨hnone, hredecode | hlead⟩ := halone c tail rfl rfl
      · simp [decodeText, hnone, hredecode]
      · simp [decodeText, hnone, hlead]

/-- Settles O28: each clause is a branch of the loop step, found through MB_PAIRS and LEADS. -/
theorem decoderLoopStep : Obligations.DecoderLoopStep := by
  intro p mb hp
  refine ⟨decodeText_nil p mb, fun v rest => ⟨?pair, ?drop, fun h => ?alone⟩⟩
  case pair =>
    rintro c tail y rfl rfl hy
    exact decodeText_of_symbolOf ((symbolOf_eq_some hp).mpr hy) tail
  case drop =>
    rintro c tail rfl rfl hnone hdrop hlead
    exact decodeText_of_dropPair (symbolOf_eq_none.mpr hnone) hdrop (isLead_iff.mpr hlead) tail
  case alone =>
    have hstep : decodeText p mb (v :: rest) = decodeByte v ++ decodeText p mb rest := by
      refine decodeText_cons_alone ?_
      rintro c tail rfl rfl
      obtain h | h | ⟨_, _, ⟨⟩, hnone, hkeep⟩ := h
      · cases h
      · cases h
      · refine ⟨symbolOf_eq_none.mpr hnone, hkeep.imp_right fun hlead => ?_⟩
        rw [Bool.eq_false_iff, ne_eq, isLead_iff, not_exists]
        exact hlead
    rw [hstep]
    exact ⟨fun g hlo hhi hg => by rw [decodeByte_eq_singleton hlo hhi hg, List.singleton_append],
      fun hv => by rw [decodeByte_eq_nil hv, List.nil_append]⟩

/-! ### Decoding without mb (R109) -/

/-- Without `mb` the loop is a map over the bytes. -/
theorem decodeText_false (p : Params) (text : List Byte) : decodeText p false text = text.flatMap decodeByte := by
  induction text with
  | nil => simp
  | cons v text ih => rw [decodeText_cons_alone (mb := false) (by simp), ih, List.flatMap_cons]

/-- Settles O29: without `mb` the decoder is `decodeByte` on every byte. -/
theorem withoutMbEveryByteAlone : Obligations.WithoutMbEveryByteAlone := by
  refine ⟨fun p text => ?_, fun p v g hlo hhi hg => ?_, fun p v hv => ?_, ?_, ?_⟩
  · simp only [decodeText_singleton, decodeText_false]
  · rw [decodeText_singleton, decodeByte_eq_singleton hlo hhi hg]
  · rw [decodeText_singleton, decodeByte_eq_nil hv]
  · rw [decodeText_false]; decide
  · rw [decodeText_false]; decide

/-! ### The length of a decoded text (R107) and the worked examples (R110) -/

/-- Settles O30: every loop step gives at most one glyph for a byte or two. -/
theorem decodedTextIsNoLonger : Obligations.DecodedTextIsNoLonger := fun p mb text =>
  ⟨decodeText_length p mb text, decodeText_length_le_of_textFits p mb, decodeText_nil p mb⟩

/-- Settles O27: the examples are closed, and the decoder evaluates each. -/
theorem decoderWorkedExamples : Obligations.DecoderWorkedExamples := by
  unfold Obligations.DecoderWorkedExamples
  decide

end Sys2Proof.Machine
end

section
/-! PROOFS of the statements about the rasterizer (43_render.md): the laws of Measure (R121), what PIXEL_LENGTH and PRINT_TEXT
answer (R120, R122, R124, R125), the pixels and bytes that PRINT_TEXT leaves (R123, R126), and the overwrite corner (R127). -/

namespace Sys2Proof.Machine

/-! ### Widths and Measure as sums (R120, R121, R122) -/

theorem textWidth_eq_sum (p : Params) (gs : List GlyphIndex) : textWidth p gs = (gs.map (widthOf p)).sum := by
  induction gs with
  | nil => rfl
  | cons g gs ih => rw [textWidth, ih, List.map_cons, List.sum_cons]

theorem measureText_eq_sum (p : Params) (gs : List GlyphIndex) :
    measureText p gs = (gs.map fun g => widthOf p g + 1).sum := by
  induction gs with
  | nil => rfl
  | cons g gs ih => rw [measureText, ih, List.map_cons, List.sum_cons]

theorem length_le_textWidth {p : Params} (h : p.legal = true) (gs : List GlyphIndex) : gs.length ≤ textWidth p gs := by
  have hpos : ∀ w ∈ gs.map (widthOf p), 1 ≤ w := List.forall_mem_map.mpr fun g _ => (widthOf_bounds h g).1
  simpa only [textWidth_eq_sum, List.length_map] using List.length_le_sum_of_one_le _ hpos

/-- A text that fits measures at most 255 glyphs of 8 + 1 columns (R17). -/
theorem measureText_le_of_textFits {p : Params} (hp : p.legal = true) (mb : Bool) {text : List Byte}
    (h : textFits text = true) : measureText p (decodeText p mb text) ≤ 2295 := by
  have hlen := decodeText_length_le_of_textFits p mb h
  have hmeasure := measureText_le hp (decodeText p mb text)
  omega

theorem textWidth_le_measureText (p : Params) (gs : List GlyphIndex) : textWidth p gs ≤ measureText p gs := by
  rw [measureText_eq]
  exact Nat.le_add_right _ _

theorem wordOfNat_toNat {v : Nat} (h : v < 2 ^ 32) : (wordOfNat v).toNat = v := by
  rw [wordOfNat, BitVec.toNat_ofNat, Nat.mod_eq_of_lt h]

/-- Settles O31: Measure is the advance plus one column a glyph, and the advance is at least one column a glyph. -/
theorem measureLaws : Obligations.MeasureLaws := by
  refine fun p a b => ⟨rfl, measureText_append p a b, ?_, fun hp => ?_⟩
  · rw [measureText_eq, textWidth_eq_sum]
  · have hlen := length_le_textWidth hp a
    rw [measureText_eq]
    omega

/-! ### What PIXEL_LENGTH and PRINT_TEXT answer (R124, R125) -/

/-- Settles O32: the measure of a text that fits is below 2^32. -/
theorem pixelLengthRespondsMeasure : Obligations.PixelLengthRespondsMeasure := by
  refine fun mb text s => ⟨_, rfl, fun hfits hlegal => ?_⟩
  have hle := measureText_le_of_textFits hlegal mb hfits
  rw [wordOfNat_toNat (by omega), ← measureText_eq_sum]
  exact ⟨rfl, hle⟩

/-- PRINT_TEXT draws the decoded text on the state's frame buffer and responds its width. -/
theorem exec_printText (mb : Bool) (x0 : BitVec 16) (text : List Byte) (s : State) :
    exec (.printText mb x0 text) s =
      .next ((s.setFb (draw s.params s.cfg s.resets x0.toInt (decodeText s.params mb text) s.fb).1).respond
        (wordOfInt (textWidth s.params (decodeText s.params mb text)))) := by
  rw [← draw_width s.params s.cfg s.resets x0.toInt (decodeText s.params mb text) s.fb]
  rfl

section
variable {mb : Bool} {x0 : BitVec 16} {text : List Byte} {s t : State}

theorem keepsAllButFb_of_exec_printText (h : exec (.printText mb x0 text) s = .next t) : KeepsAllButFb s t := by
  cases h
  exact keepsAllButFb_setFb_respond s _ _

/-- PRINT_TEXT changes no byte outside the frame buffer's 8·N. -/
theorem byte_of_exec_printText_outside (h : exec (.printText mb x0 text) s = .next t) {a : Nat}
    (ha : fbSize s.cfg ≤ a) : t.byte a = s.byte a := by
  cases h
  exact byte_draw_outside s.params s.cfg s.resets x0.toInt _ s.fb a ha

/-- Each pixel of the display ends as what the text writes there last (R123). -/
theorem pixel_of_exec_printText (h : exec (.printText mb x0 text) s = .next t) {x : Int} {r : Fin 8}
    (hd : inDisplay s.cfg x r.val) :
    t.pixel x r.val = (textPixel s.params (decodeText s.params mb text) x0.toInt x r).getD (s.pixel x r.val) := by
  cases h
  exact pixel_drawFrom s.params s.cfg s.resets _ x0.toInt s.fb x r hd

end

/-- Settles O33: Draw returns the text's width, which is below 2^32, and writes inside the frame buffer only. -/
theorem printTextRespondsTheWidth : Obligations.PrintTextRespondsTheWidth := by
  intro mb x text s
  have hx := exec_printText mb x text s
  refine ⟨_, _, hx, rfl, keepsAllButFb_of_exec_printText hx, fun a => byte_of_exec_printText_outside hx,
    fun hfits hlegal => ?_⟩
  have hle := (textWidth_le_measureText _ _).trans (measureText_le_of_textFits hlegal mb hfits)
  rw [← textWidth_eq_sum, wordOfInt, BitVec.ofInt_natCast]
  exact wordOfNat_toNat (by omega)

/-- Settles O34: PRINT_TEXT is one Draw. -/
theorem printTextPixelsAreTheLastWrites : Obligations.PrintTextPixelsAreTheLastWrites := fun mb x0 text s =>
  ⟨_, exec_printText mb x0 text s, fun _ _ => pixel_of_exec_printText (exec_printText mb x0 text s)⟩

/-! ### The Draw laws under WIDTH (R126) -/

theorem exists_row_of_inDisplay {c : Cfg} {x y : Int} (h : inDisplay c x y) : ∃ r : Fin 8, y = r.val := by
  obtain ⟨-, -, hy, hy'⟩ := h
  exact ⟨⟨y.toNat, by omega⟩, (Int.toNat_of_nonneg hy).symm⟩

/-- Under WIDTH a text writes nothing outside its footprint. -/
theorem textPixel_outside {p : Params} (hw : p.drawColumns = .width) (gs : List GlyphIndex) {cur x : Int} (r : Fin 8)
    (h : ¬ (cur ≤ x ∧ x < cur + textWidth p gs)) : textPixel p gs cur x r = none := by
  rcases lt_or_ge x cur with hleft | hright
  · exact textPixel_left p gs cur x r hleft
  · exact textPixel_right hw gs cur x r (by omega)

/-- Under WIDTH one glyph writes its columns below its width. -/
theorem textPixel_singleton {p : Params} (hw : p.drawColumns = .width) (g : GlyphIndex) (cur x : Int) (r : Fin 8) :
    textPixel p [g] cur x r =
      if cur ≤ x ∧ x < cur + widthOf p g then some (glyphBit (glyphAt p g) r (x - cur).toNat) else none := by
  simp only [textPixel, drawnColumns, hw]

/-- States with the same pixels and the same bytes beyond the display have the same bytes. -/
theorem State.byte_congr_of_pixel {s t : State} (hcfg : t.cfg = s.cfg) (hresets : t.resets = s.resets)
    (hpixel : ∀ x y, inDisplay s.cfg x y → t.pixel x y = s.pixel x y)
    (hout : ∀ a, fbSize s.cfg ≤ a → t.byte a = s.byte a) (a : Nat) : t.byte a = s.byte a := by
  simp only [State.byte_eq, State.pixel_eq, hcfg, hresets] at *
  exact Machine.byte_congr_of_pixel hpixel hout a

theorem getLsbD_leftColumns (w i : Nat) : (leftColumns w).getLsbD i = true ↔ i < 8 ∧ 8 ≤ w + i := by
  rw [leftColumns, BitVec.getLsbD_not, BitVec.getLsbD_ushiftRight, BitVec.getLsbD_allOnes]
  simp

/-- The byte whose bits are those of `new` under the mask and those of `old` elsewhere. -/
theorem byte_eq_overlay {b new old mask : Byte}
    (h : ∀ i, i < 8 → b.getLsbD i = if mask.getLsbD i then new.getLsbD i else old.getLsbD i) :
    b = (new &&& mask) ||| (old &&& ~~~mask) := by
  refine BitVec.eq_of_getLsbD_eq fun i hi => ?_
  rw [h i hi, BitVec.getLsbD_or, BitVec.getLsbD_and, BitVec.getLsbD_and, BitVec.getLsbD_not]
  cases mask.getLsbD i <;> simp [hi]

section
variable {mb : Bool} {x0 : BitVec 16} {text : List Byte} {s t : State}

theorem pixel_of_exec_printText_outside (hw : s.params.drawColumns = .width)
    (h : exec (.printText mb x0 text) s = .next t) {x y : Int} (hd : inDisplay s.cfg x y)
    (hout : ¬ (x0.toInt ≤ x ∧ x < x0.toInt + textWidth s.params (decodeText s.params mb text))) :
    t.pixel x y = s.pixel x y := by
  obtain ⟨r, rfl⟩ := exists_row_of_inDisplay hd
  rw [pixel_of_exec_printText h hd, textPixel_outside hw _ r hout, Option.getD_none]

/-- A text whose footprint misses the display changes no byte. -/
theorem byte_of_exec_printText_offscreen (hw : s.params.drawColumns = .width)
    (h : exec (.printText mb x0 text) s = .next t)
    (hoff : ∀ x : Int, 0 ≤ x → x < displayWidth s.cfg →
      ¬ (x0.toInt ≤ x ∧ x < x0.toInt + textWidth s.params (decodeText s.params mb text))) (a : Nat) :
    t.byte a = s.byte a := by
  have hkeep := keepsAllButFb_of_exec_printText h
  exact State.byte_congr_of_pixel hkeep.cfg hkeep.resets
    (fun x y hd => pixel_of_exec_printText_outside hw h hd (hoff x hd.1 hd.2.1))
    (fun a => byte_of_exec_printText_outside h) a

/-! ### One glyph on one module without flags (R126) -/

/-- On one module without flags bit `i` of byte `r` is the pixel in column `7 - i` of row `r`. -/
theorem pixel_oneModule (hc : s.cfg = ⟨1, false, false, false⟩) (r : Fin 8) {i : Nat} (hi : i < 8) :
    inDisplay s.cfg (7 - i) r.val ∧ s.pixel (7 - i) r.val = (s.byte r.val).getLsbD i := by
  have hn : s.cfg.n.toNat = 1 := by rw [hc]; rfl
  have hd : inDisplay s.cfg (7 - i) r.val := by
    unfold inDisplay displayWidth
    omega
  have hoff : physOff s.cfg (7 - i) r.val = r.val := by
    simp only [physOff, physRow, physSeg, hn]
    simp only [hc, Bool.false_eq_true, if_false]
    omega
  have hbit : physBit s.cfg (7 - i) = i := by
    simp only [physBit, hc, Bool.false_eq_true, if_false]
    omega
  rw [State.pixel_eq, pixel_in hd, hoff, hbit]
  exact ⟨hd, rfl⟩

theorem getLsbD_of_exec_printText_glyph (hw : s.params.drawColumns = .width)
    (h : exec (.printText mb x0 text) s = .next t) (hc : s.cfg = ⟨1, false, false, false⟩) {g : GlyphIndex}
    (hg : decodeText s.params mb text = [g]) (r : Fin 8) {i : Nat} (hi : i < 8) :
    (t.byte r.val).getLsbD i =
      if x0.toInt ≤ 7 - i ∧ 7 - i < x0.toInt + widthOf s.params g then
        (glyphAt s.params g).rows[r].getLsbD (7 - (7 - i - x0.toInt).toNat)
      else (s.byte r.val).getLsbD i := by
  obtain ⟨hd, hread⟩ := pixel_oneModule hc r hi
  obtain ⟨-, hread'⟩ := pixel_oneModule ((keepsAllButFb_of_exec_printText h).cfg.trans hc) r hi
  rw [← hread', ← hread, pixel_of_exec_printText h hd, hg, textPixel_singleton hw]
  split <;> rfl

/-- Started at a column `k` of the module, the glyph's columns are moved right by `k`. -/
theorem byte_of_exec_printText_right (hw : s.params.drawColumns = .width)
    (h : exec (.printText mb x0 text) s = .next t) (hc : s.cfg = ⟨1, false, false, false⟩) {g : GlyphIndex}
    (hg : decodeText s.params mb text = [g]) (r : Fin 8) {k : Nat} (hx : x0.toInt = k) :
    t.byte r.val =
      (((glyphAt s.params g).rows[r] &&& leftColumns (widthOf s.params g)) >>> k) |||
        (s.byte r.val &&& ~~~(leftColumns (widthOf s.params g) >>> k)) := by
  rw [BitVec.ushiftRight_and_distrib]
  refine byte_eq_overlay fun i hi => ?_
  simp only [getLsbD_of_exec_printText_glyph hw h hc hg r hi, hx, BitVec.getLsbD_ushiftRight, getLsbD_leftColumns]
  by_cases hin : k + i < 8 ∧ 8 ≤ widthOf s.params g + (k + i)
  · rw [if_pos hin, if_pos (by omega), show 7 - (7 - (i : Int) - k).toNat = k + i by omega]
  · rw [if_neg hin, if_neg (by omega)]

/-- Started `k` columns left of the module, the glyph's columns are moved left by `k`. -/
theorem byte_of_exec_printText_left (hw : s.params.drawColumns = .width) (hlegal : s.params.legal = true)
    (h : exec (.printText mb x0 text) s = .next t) (hc : s.cfg = ⟨1, false, false, false⟩) {g : GlyphIndex}
    (hg : decodeText s.params mb text = [g]) (r : Fin 8) {k : Nat} (hx : x0.toInt = -(k : Int)) :
    t.byte r.val =
      (((glyphAt s.params g).rows[r] &&& leftColumns (widthOf s.params g)) <<< k) |||
        (s.byte r.val &&& ~~~(leftColumns (widthOf s.params g) <<< k)) := by
  have hwidth := (widthOf_bounds hlegal g).2
  rw [BitVec.shiftLeft_and_distrib]
  refine byte_eq_overlay fun i hi => ?_
  rw [getLsbD_of_exec_printText_glyph hw h hc hg r hi, hx]
  by_cases hik : i < k
  · have hbit (b : Byte) : (b <<< k).getLsbD i = false := by simp [hik]
    rw [hbit, if_neg (by omega)]
    rfl
  · have hbit (b : Byte) : (b <<< k).getLsbD i = b.getLsbD (i - k) := by rw [BitVec.getLsbD_shiftLeft]; simp [hi, hik]
    simp only [hbit, getLsbD_leftColumns]
    refine if_congr (by omega) ?_ rfl
    rw [show 7 - (7 - (i : Int) - -k).toNat = i - k by omega]

end

/-- Settles O35: what the text writes is confined to its footprint, where each glyph's columns are its own. -/
theorem drawLawsUnderWidth : Obligations.DrawLawsUnderWidth := by
  intro mb x0 text s hw hlegal
  simp only [← textWidth_eq_sum]
  have hx := exec_printText mb x0 text s
  refine ⟨_, hx, rfl, fun x y => pixel_of_exec_printText_outside hw hx, fun pre post g col r hgs hcol hx0 hxw => ?glyph,
    fun hoff => byte_of_exec_printText_offscreen hw hx fun x hx0 hxw => ?offscreen, fun hnil => ?empty,
    fun g hg hc r => ⟨fun k _ => byte_of_exec_printText_right hw hx hc hg r,
      fun k _ _ => byte_of_exec_printText_left hw hlegal hx hc hg r⟩⟩
  case glyph =>
    have hd : inDisplay s.cfg (x0.toInt + textWidth s.params pre + col) r.val := by
      unfold inDisplay displayWidth
      omega
    rw [pixel_of_exec_printText hx hd, hgs, textPixel_glyph pre g post _ col r hcol (widthOf_bounds hlegal g).2]
    rfl
  case offscreen =>
    unfold displayWidth at hxw
    obtain hright | hleft | hnil := hoff
    · omega
    · omega
    · rw [hnil, textWidth]
      omega
  case empty =>
    rw [hnil]
    rfl

/-! ### The overwrite corner (R127) -/

/-- Settles O36: the worked case is closed, and PRINT_TEXT evaluates under each DRAW_COLUMNS. -/
theorem overwriteCornerWorkedCase : Obligations.OverwriteCornerWorkedCase := by
  intro dc
  cases dc with
  | width => exact ⟨_, exec_printText true 0 [0x41] _, by decide, by decide, by decide⟩
  | full8 => exact ⟨_, exec_printText true 0 [0x41] _, by decide, by decide, by decide⟩

end Sys2Proof.Machine
end

section
/-! PROOFS of the statements about the ticker (44_ticker.md): the STARTs (R132, R133), polls that wait and polls that advance
(R130, R131, R134-R136, R141), STOP (R137), READ_STATUS (R138), the scroll's offsets and period (R139) and its blank frames
(R140). -/

namespace Sys2Proof.Machine

/-! ### What the STARTs write (R132, R133) -/

/-- A command that only replaces the ticker registers and responds keeps everything else. -/
theorem keepsAllButTk_setTk_respond (s : State) (t : Ticker) (v : Word) : KeepsAllButTk s ((s.setTk t).respond v) :=
  ⟨rfl, rfl, rfl, fun _ => rfl, rfl, rfl, rfl, rfl⟩

/-- The right-edge offset is 8·N as a signed number (R24). -/
theorem toInt_wordOfNat_displayWidth (c : Cfg) : (wordOfNat (displayWidth c)).toInt = 8 * (c.n.toNat : Int) := by
  have hn := c.n.isLt
  have hw : (wordOfNat (displayWidth c)).toNat = 8 * c.n.toNat := wordOfNat_toNat (by unfold displayWidth; omega)
  rw [BitVec.toInt_eq_toNat_of_lt (by omega), hw, Nat.cast_mul]
  rfl

section
variable (s : State) (mb : Bool) {text : List Byte} (offset interval : Word)

/-- A text that fits has at most 255 glyphs, which 8 bits count (R30). -/
theorem startSession_gcount_toNat (hfits : textFits text = true) :
    (startSession s (decodeText s.params mb text) offset interval).gcount.toNat =
      (decodeText s.params mb text).length := by
  have hlen := decodeText_length_le_of_textFits s.params mb hfits
  rw [startSession_gcount, BitVec.toNat_ofNat, Nat.mod_eq_of_lt (by omega)]

/-- A text that fits measures less than 2^32 columns (R17). -/
theorem startSession_len_toNat (hfits : textFits text = true) (hp : s.params.legal = true) :
    (startSession s (decodeText s.params mb text) offset interval).len.toNat =
      ((decodeText s.params mb text).map fun g => widthOf s.params g + 1).sum := by
  have hle := measureText_le_of_textFits hp mb hfits
  rw [startSession_len, wordOfNat_toNat (by omega), measureText_eq_sum]

end

/-- Settles O37: the session that START_TICKER writes, at the right-edge offset. -/
theorem startTickerEntersFromTheRight : Obligations.StartTickerEntersFromTheRight := fun mb interval _ s hfits hp =>
  ⟨_, rfl, rfl, keepsAllButTk_setTk_respond s _ 0, rfl, startSession_gcount_toNat s mb _ interval hfits, rfl,
    startSession_len_toNat s mb _ interval hfits hp, toInt_wordOfNat_displayWidth s.cfg, rfl, rfl⟩

/-- Settles O38: the session that START_TICKER.AT writes, at the X field sign-extended. -/
theorem startTickerAtTheGivenOffset : Obligations.StartTickerAtTheGivenOffset := fun mb off interval _ s hfits hp =>
  ⟨_, rfl, rfl, keepsAllButTk_setTk_respond s _ 0, rfl, startSession_gcount_toNat s mb _ interval hfits, rfl,
    startSession_len_toNat s mb _ interval hfits hp, wordOfInt_signedX off, rfl, rfl⟩

/-- A new session is made of the parameters, the operands and NOW: it reads no ticker register (R133). -/
theorem startSession_setTk (s : State) (old : Ticker) (gs : List GlyphIndex) (offset interval : Word) :
    startSession (s.setTk old) gs offset interval = startSession s gs offset interval := rfl

/-- Settles O39: both STARTs replace the registers by a new session. -/
theorem startForgetsTheOldSession : Obligations.StartForgetsTheOldSession := fun mb _ interval text s old =>
  ⟨⟨_, _, rfl, rfl, (startSession_setTk s old (decodeText s.params mb text) _ interval).symm⟩,
    ⟨_, _, rfl, rfl, (startSession_setTk s old (decodeText s.params mb text) _ interval).symm⟩⟩

/-! ### READ_STATUS (R138, R23) -/

theorem statusView_of_gt (s : State) {sel : Nat} (h : 6 < sel) : statusView s sel = none := by
  obtain ⟨k, rfl⟩ := Nat.exists_eq_add_of_le' (Nat.succ_le_of_lt h)
  rfl

/-- A flag shifted to bit `k` of a word is that bit alone. -/
theorem getLsbD_wordOfBool_shiftLeft (b : Bool) {k : Nat} (hk : k < 32) (i : Nat) :
    (wordOfBool b <<< k).getLsbD i = (decide (i = k) && b) := by
  rw [wordOfBool, BitVec.getLsbD_shiftLeft, BitVec.getLsbD_setWidth, BitVec.getLsbD_ofBool]
  grind

/-- The bits of CFG in the READ_STATUS view. -/
theorem getLsbD_cfgView (c : Cfg) (i : Nat) :
    (cfgView c).getLsbD i =
      (c.n.getLsbD i || (decide (i = 8) && c.mxs) || (decide (i = 9) && c.mxd) || (decide (i = 10) && c.my)) := by
  have hn : (c.n.setWidth 32).getLsbD i = c.n.getLsbD i := by
    rw [BitVec.getLsbD_setWidth]
    grind
  have hflag (b : Bool) {k : Nat} (hk : k < 32) := getLsbD_wordOfBool_shiftLeft b hk i
  rw [cfgView, BitVec.getLsbD_or, BitVec.getLsbD_or, BitVec.getLsbD_or, hn, hflag _ (by decide), hflag _ (by decide),
    hflag _ (by decide)]

/-- Settles O43: the view of each selector. -/
theorem readStatusRespondsTheRegisters : Obligations.ReadStatusRespondsTheRegisters := by
  intro s
  refine ⟨exec_readStatus_of_some (congrArg some (wordOfBool_eq s.tk.active)), exec_readStatus_of_some rfl,
    exec_readStatus_of_some rfl, exec_readStatus_of_some rfl, exec_readStatus_of_some rfl,
    ⟨_, exec_readStatus_of_some rfl, BitVec.toNat_setWidth_of_le (by decide)⟩,
    ⟨_, exec_readStatus_of_some rfl, ?segments, ?_, ?_, ?_, fun i hi => ?above⟩,
    fun sel h => exec_readStatus_of_none (statusView_of_gt s h)⟩
  case segments =>
    refine BitVec.eq_of_getLsbD_eq fun i hi => ?_
    rw [BitVec.getLsbD_extractLsb', Nat.zero_add, getLsbD_cfgView]
    grind
  case above =>
    rw [getLsbD_cfgView, BitVec.getLsbD_of_ge _ _ (by omega)]
    grind
  all_goals
    rw [getLsbD_cfgView, BitVec.getLsbD_of_ge _ _ (by decide)]
    simp

/-! ### A poll that waits (R130, R131, R134) -/

/-- Settles O40: such a poll is not one that advances. -/
theorem pollThatWaitsChangesNothing : Obligations.PollThatWaitsChangesNothing := by
  intro s hwait
  refine exec_pollTicker_of_waits (Bool.eq_false_iff.mpr fun hadv => ?_)
  obtain ⟨hactive, hdue⟩ := (pollAdvances_iff s).mp hadv
  obtain hinactive | hearly := hwait
  · exact absurd (hinactive.symm.trans hactive) Bool.false_ne_true
  · omega

/-! ### A poll that advances (R134-R136, R141) -/

/-- A due poll of an ACTIVE ticker advances and responds 1. -/
theorem exec_pollTicker_of_due {s : State} (hactive : s.tk.active = true)
    (hdue : s.tk.interval.toNat ≤ elapsedMs s) : exec .pollTicker s = .next ((advance s).respond 1) :=
  exec_pollTicker_of_advances ((pollAdvances_iff s).mpr ⟨hactive, hdue⟩)

/-- The frame of an advance is the message at the offset before it, on a cleared display. -/
theorem pixel_advance (s : State) (x : Int) (r : Fin 8) (hd : inDisplay s.cfg x r.val) :
    (advance s).pixel x r.val = (textPixel s.params (message s.tk) s.tk.offset.toInt x r).getD false := by
  rw [← pixel_clear s.cfg s.resets s.fb x r.val]
  exact pixel_drawFrom s.params s.cfg s.resets (message s.tk) s.tk.offset.toInt _ x r hd

/-- An advance changes no byte outside the frame buffer's 8·N. -/
theorem byte_advance_outside (s : State) {a : Nat} (ha : fbSize s.cfg ≤ a) : (advance s).byte a = s.byte a := by
  have hclear : (s.fb.clear s.cfg).byte s.resets a = s.byte a := by
    rw [Memory.byte_clear, if_neg (by omega), State.byte_eq]
  rw [← hclear]
  exact byte_draw_outside s.params s.cfg s.resets s.tk.offset.toInt _ _ a ha

/-- The offset after an advance, as signed numbers (R135). -/
theorem toInt_nextOffset (c : Cfg) {offset : Word} (len : Word) (h : -32768 ≤ offset.toInt) :
    (nextOffset c offset len).toInt =
      if offset.toInt - 1 < -(len.toNat : Int) then 8 * (c.n.toNat : Int) else offset.toInt - 1 := by
  rw [← toInt_sub_one h, ← toInt_wordOfNat_displayWidth]
  simp only [nextOffset, pastLeftEdge, decide_eq_true_eq, apply_ite BitVec.toInt]

/-- Settles O41: such a poll is one advance. -/
theorem pollThatIsDueAdvances : Obligations.PollThatIsDueAdvances := fun s hinv hactive hdue =>
  ⟨_, exec_pollTicker_of_due hactive hdue, rfl, ⟨rfl, rfl, rfl, rfl, rfl, rfl⟩, pixel_advance s,
    fun _ => byte_advance_outside s, toInt_nextOffset s.cfg s.tk.len (hinv.sessionOffset hactive).1, rfl, hactive,
    rfl, rfl, rfl, rfl⟩

/-! ### Runs of polls -/

/-- A run of polls takes its first poll first, at that poll's NOW. -/
theorem runPolls_cons_of_exec {s t : State} {now : Word} (h : exec .pollTicker (s.atTime now) = .next t)
    (nows : List Word) : runPolls (now :: nows) s = runPolls nows t :=
  runCommands_cons_of_exec h _

/-- A run of one poll more is the run, then that poll at its NOW. -/
theorem runPolls_concat {nows : List Word} {now : Word} {s u : State} :
    runPolls (nows ++ [now]) s = .next u ↔
      ∃ v, runPolls nows s = .next v ∧ exec .pollTicker (v.atTime now) = .next u := by
  induction nows generalizing s with
  | nil =>
    obtain ⟨m, tk, r, hx⟩ := exec_next .pollTicker (s.atTime now)
    simp [runPolls, runCommands, hx]
  | cons first nows ih =>
    obtain ⟨m, tk, r, hx⟩ := exec_next .pollTicker (s.atTime first)
    rw [List.cons_append, runPolls_cons_of_exec hx, runPolls_cons_of_exec hx]
    exact ih

/-! ### STOP (R137) -/

/-- Polls of an INACTIVE ticker, at any times, respond 0 and change neither FB nor TK (R130). -/
theorem runPolls_of_inactive {s : State} (h : s.tk.active = false) (nows : List Word) :
    ∃ now, runPolls nows s =
      .next { s.atTime now with responses := s.responses ++ List.replicate nows.length ⟨.ok, 0⟩ } := by
  induction nows generalizing s with
  | nil => exact ⟨s.now, by simp [runPolls, runCommands, State.atTime]⟩
  | cons now nows ih =>
    have hfirst := pollThatWaitsChangesNothing (s.atTime now) (.inl h)
    obtain ⟨last, hrun⟩ := ih (s := (s.atTime now).respond 0) h
    refine ⟨last, (runPolls_cons_of_exec hfirst nows).trans (hrun.trans ?_)⟩
    rw [State.respond_responses, List.append_assoc]
    rfl

/-- Settles O42: STOP_TICKER leaves the ticker INACTIVE, and polls of an INACTIVE ticker wait. -/
theorem stoppedTickerNeverMoves : Obligations.StoppedTickerNeverMoves := by
  intro s nows
  obtain ⟨now, hrun⟩ := runPolls_of_inactive (s := (s.setTk { s.tk with active := false }).respond 0) rfl nows
  exact ⟨_, rfl, rfl, keepsAllButTk_setTk_respond s _ 0, rfl, _, hrun, rfl, rfl, fun _ => rfl, rfl⟩

/-! ### The scroll offsets (R139) -/

/-- The scroll from its j-th offset on is the scroll that starts there. -/
theorem scrollOffset_add (w l : Nat) (o : Int) (j i : Nat) :
    scrollOffset w l o (j + i) = scrollOffset w l (scrollOffset w l o j) i := by
  induction i with
  | zero => rfl
  | succ i ih => rw [← Nat.add_assoc, scrollOffset_succ, scrollOffset_succ, ih]

/-- Down to -L the offsets fall by one. -/
theorem scrollOffset_of_le (w : Nat) {l : Nat} {o : Int} {k : Nat} (h : (k : Int) ≤ o + l) :
    scrollOffset w l o k = o - k := by
  induction k with
  | zero => simp [scrollOffset_zero]
  | succ k ih =>
    rw [scrollOffset_succ, ih (by omega), if_pos (by omega)]
    omega

/-- The offset after one that is at or below -L is W. -/
theorem scrollOffset_succ_of_le (w : Nat) {l : Nat} {o : Int} {k : Nat} (h : scrollOffset w l o k ≤ -(l : Int)) :
    scrollOffset w l o (k + 1) = w := by
  rw [scrollOffset_succ, if_neg (by omega)]

/-- A scroll that starts at or right of -L restarts after the frame at -L. -/
theorem scrollOffset_restart (w : Nat) {l : Nat} {o : Int} (h : o ≥ -(l : Int)) :
    scrollOffset w l o ((o + l).toNat + 1) = w := by
  refine scrollOffset_succ_of_le w ?_
  rw [scrollOffset_of_le w (by omega)]
  omega

/-- From W the scroll is back at W after W + L + 1 advances. -/
theorem scrollOffset_period {w l j : Nat} {o : Int} (h : scrollOffset w l o j = w) :
    scrollOffset w l o (j + (w + l + 1)) = w := by
  have hback := scrollOffset_restart w (l := l) (o := w) (by omega)
  rwa [← Nat.cast_add, Int.toNat_natCast, ← h, ← scrollOffset_add, h] at hback

/-- The offset after an advance is the scroll's next one. -/
theorem toInt_nextOffset_of_scrollOffset (c : Cfg) {offset len : Word} {o : Int} {k : Nat}
    (hlo : -32768 ≤ offset.toInt) (h : offset.toInt = scrollOffset (8 * c.n.toNat) len.toNat o k) :
    (nextOffset c offset len).toInt = scrollOffset (8 * c.n.toNat) len.toNat o (k + 1) := by
  rw [toInt_nextOffset c len hlo, scrollOffset_succ, ← h]
  split_ifs <;> omega

/-! ### Runs of advancing polls (R139) -/

/-- What advances keep of a session: all that a frame is drawn from but the offset, in a state of the invariant. -/
structure SameSession (s t : State) : Prop where
  inv : t.Inv
  active : t.tk.active = true
  params : t.params = s.params
  cfg : t.cfg = s.cfg
  len : t.tk.len = s.tk.len
  message : message t.tk = message s.tk

/-- A poll that responds 1 advanced. -/
theorem eq_advance_of_responds_one {s u : State} {rs : List Response} (hx : exec .pollTicker s = .next u)
    (hr : u.responses = rs ++ [⟨.ok, 1⟩]) : u = (advance s).respond 1 ∧ s.responses = rs := by
  cases hadv : pollAdvances s with
  | true =>
    cases (exec_pollTicker_of_advances hadv).symm.trans hx
    exact ⟨rfl, (List.append_inj' hr rfl).1⟩
  | false =>
    cases (exec_pollTicker_of_waits hadv).symm.trans hx
    have hvalue : (⟨.ok, 0⟩ : Response) = ⟨.ok, 1⟩ := List.singleton_inj.mp (List.append_inj' hr rfl).2
    exact absurd hvalue (by decide)

/-- A run whose polls all respond 1 is such a run of one poll less, then an advance. -/
theorem runPolls_concat_advanced {nows : List Word} {now : Word} {s u : State}
    (hrun : runPolls (nows ++ [now]) s = .next u)
    (hr : u.responses = s.responses ++ List.replicate (nows.length + 1) ⟨.ok, 1⟩) :
    ∃ v, runPolls nows s = .next v ∧ v.responses = s.responses ++ List.replicate nows.length ⟨.ok, 1⟩ ∧
      exec .pollTicker (v.atTime now) = .next u ∧ u = (advance (v.atTime now)).respond 1 := by
  obtain ⟨v, hv, hx⟩ := runPolls_concat.mp hrun
  rw [List.replicate_succ', ← List.append_assoc] at hr
  obtain ⟨hu, hresponses⟩ := eq_advance_of_responds_one hx hr
  exact ⟨v, hv, hresponses, hx, hu⟩

/-- An advance keeps the session. -/
theorem SameSession.advance {s v u : State} {now : Word} (h : SameSession s v)
    (hx : exec .pollTicker (v.atTime now) = .next u) (hu : u = (advance (v.atTime now)).respond 1) :
    SameSession s u := by
  have hinv : u.Inv := exec_keeps_inv rfl hx (h.inv.congr rfl rfl rfl rfl)
  subst hu
  exact ⟨hinv, h.active, h.params, h.cfg, h.len, h.message⟩

/-- A run of n advances keeps the session and leaves it at the n-th scroll offset. -/
theorem runPolls_advanced {nows : List Word} {s u : State} (hinv : s.Inv) (hactive : s.tk.active = true)
    (hrun : runPolls nows s = .next u) (hr : u.responses = s.responses ++ List.replicate nows.length ⟨.ok, 1⟩) :
    SameSession s u ∧
      u.tk.offset.toInt = scrollOffset (8 * s.cfg.n.toNat) s.tk.len.toNat s.tk.offset.toInt nows.length := by
  induction nows using List.reverseRecOn generalizing u with
  | nil =>
    cases hrun
    exact ⟨⟨hinv, hactive, rfl, rfl, rfl, rfl⟩, rfl⟩
  | append_singleton nows now ih =>
    rw [List.length_append, List.length_singleton] at hr ⊢
    obtain ⟨v, hv, hresponses, hx, hu⟩ := runPolls_concat_advanced hrun hr
    obtain ⟨hsame, hoffset⟩ := ih hv hresponses
    refine ⟨hsame.advance hx hu, ?_⟩
    rw [← hsame.cfg, ← hsame.len] at hoffset ⊢
    rw [hu]
    exact toInt_nextOffset_of_scrollOffset v.cfg (hsame.inv.sessionOffset hsame.active).1 hoffset

/-- Settles O44: the run leaves the scroll offset of its length, so its last advance draws at the one before; the offsets
themselves fall to -L and restart at W. -/
theorem scrollOffsetsAndPeriod : Obligations.ScrollOffsetsAndPeriod := by
  refine ⟨fun s u nows hinv hactive hrun hr => ⟨(runPolls_advanced hinv hactive hrun hr).2, fun k hk x r hd => ?frame⟩,
    fun w l o0 => ⟨fun h => ⟨fun k => scrollOffset_of_le w, scrollOffset_restart w h⟩,
      fun h => ⟨rfl, scrollOffset_succ_of_le w (k := 0) h.le⟩, fun j i h => ?period⟩⟩
  case frame =>
    obtain rfl | ⟨init, now, rfl⟩ := List.eq_nil_or_concat' nows
    · cases hk
    · rw [List.length_append, List.length_singleton] at hr hk
      obtain rfl := Nat.succ.inj hk
      obtain ⟨v, hv, hresponses, -, rfl⟩ := runPolls_concat_advanced hrun hr
      obtain ⟨hsame, hoffset⟩ := runPolls_advanced hinv hactive hv hresponses
      rw [← hsame.cfg] at hd
      rw [State.respond_pixel, pixel_advance (v.atTime now) x r hd, ← hoffset, ← hsame.params, ← hsame.message]
      rfl
  case period => rw [scrollOffset_add w l o0 _ i, scrollOffset_period h, ← h, ← scrollOffset_add]

/-! ### Blank frames (R140) -/

/-- An ACTIVE session's length is its message's width and one column more a glyph (R121). -/
theorem State.Inv.len_eq {s : State} (hinv : s.Inv) (hactive : s.tk.active = true) :
    s.tk.len.toNat = textWidth s.params (message s.tk) + s.tk.gcount.toNat := by
  rw [hinv.sessionLength hactive, measureText_eq, message, ← hinv.glyphCount, List.take_length]

/-- Settles O45: at such an offset the message's columns miss the display. -/
theorem offscreenFramesAreBlank : Obligations.OffscreenFramesAreBlank := by
  intro s hinv hw hactive hdue hoff
  refine ⟨_, exec_pollTicker_of_due hactive hdue, fun x y => ?_⟩
  rw [State.respond_pixel]
  by_cases hd : inDisplay s.cfg x y
  · have hlen := hinv.len_eq hactive
    have hmiss : ¬ (s.tk.offset.toInt ≤ x ∧ x < s.tk.offset.toInt + textWidth s.params (message s.tk)) := by
      unfold inDisplay displayWidth at hd
      omega
    obtain ⟨r, rfl⟩ := exists_row_of_inDisplay hd
    rw [pixel_advance s x r hd, textPixel_outside hw _ r hmiss, Option.getD_none]
  · exact pixel_out hd s.resets (advanceFb s)

end Sys2Proof.Machine
end

section
/-! PROOFS of the statements about rejected packets (60_exceptions.md): the checks in their order (R152), and that a packet
answered with an error has no other effect (R153). -/

namespace Sys2Proof.Machine

/-! ### The checks in their order (R152) -/

/-- A packet that passes the decoder's three checks decodes to a command (R65, R152). -/
theorem exists_decodePacket_ok {p : Packet} (hop : ¬ opcodeReserved p.header) (hbits : ¬ reservedBitSet p.header)
    (hparts : ¬ partsMisfit p) : ∃ i, decodePacket p = .ok i := by
  obtain ⟨hop', -⟩ | ⟨-, hbits', -⟩ | ⟨-, -, hparts', -⟩ | ⟨-, -, -, hok⟩ := decodePacket_cases p
  · exact absurd hop' hop
  · exact absurd hbits' hbits
  · exact absurd hparts' hparts
  · exact hok

/-- Settles O7: the decoder's causes exclude each other in the order of its checks, and RANGE is left to the command. -/
theorem decodeChecksInPriorityOrder : Obligations.DecodeChecksInPriorityOrder := by
  refine ⟨fun p => ?_, fun p s c hd => runPacket_error hd s, fun p s row seg hd hseg => ?_, fun p s sel hd hsel => ?_,
    fun p s i hd => runPacket_ok hd s⟩
  · obtain ⟨hillegal, hreserved, hbad⟩ := decodePacket_error_iff p
    exact ⟨hillegal.mpr, fun hop hbits => hreserved.mpr ⟨hop, hbits⟩,
      fun hop hbits hparts => hbad.mpr ⟨hop, hbits, hparts⟩, exists_decodePacket_ok⟩
  · rw [runPacket_ok hd, exec_readFb_of_ge hseg]
  · rw [runPacket_ok hd, exec_readStatus_of_none (statusView_of_gt s hsel)]

/-! ### An error has no other effect (R153) -/

/-- A command either ends in OK, whatever it has changed, or is rejected before it has changed anything (R11, R153). -/
theorem exec_responds_ok_or_rejects (i : Instr) (s : State) :
    (∃ u v, exec i s = .next (State.respond u v) ∧ u.responses = s.responses) ∨
      ∃ c, exec i s = .next (s.reject c) := by
  cases i with
  | clear => exact .inl ⟨s.setFb _, _, rfl, rfl⟩
  | setPixel en x y => exact .inl ⟨s.setFb _, _, rfl, rfl⟩
  | getPixel x y => exact .inl ⟨s, _, rfl, rfl⟩
  | pixelLength mb text => exact .inl ⟨s, _, rfl, rfl⟩
  | printText mb x text => exact .inl ⟨s.setFb _, _, rfl, rfl⟩
  | startTicker mb interval text => exact .inl ⟨s.setTk _, _, rfl, rfl⟩
  | startTickerAt mb off interval text => exact .inl ⟨s.setTk _, _, rfl, rfl⟩
  | pollTicker =>
    cases hpoll : pollAdvances s with
    | true => exact .inl ⟨_, _, exec_pollTicker_of_advances hpoll, rfl⟩
    | false => exact .inl ⟨_, _, exec_pollTicker_of_waits hpoll, rfl⟩
  | stopTicker => exact .inl ⟨s.setTk _, _, rfl, rfl⟩
  | readFb row seg =>
    rcases Nat.lt_or_ge seg.toNat s.cfg.n.toNat with hseg | hseg
    · exact .inl ⟨_, _, exec_readFb_of_lt hseg row, rfl⟩
    · exact .inr ⟨_, exec_readFb_of_ge hseg row⟩
  | readStatus sel =>
    cases hview : statusView s sel.toNat with
    | some v => exact .inl ⟨_, _, exec_readStatus_of_some hview, rfl⟩
    | none => exact .inr ⟨_, exec_readStatus_of_none hview⟩

/-- A command whose response is an error is a rejected one. -/
theorem eq_reject_of_responds_error {i : Instr} {s t : State} {c : Cause} {v : Word} (hx : exec i s = .next t)
    (hresp : t.responses = s.responses ++ [⟨.error c, v⟩]) : t = s.reject c ∧ v = 0 := by
  obtain ⟨u, w, hok, hu⟩ | ⟨c', hrej⟩ := exec_responds_ok_or_rejects i s
  · obtain rfl : u.respond w = t := by simpa [hok] using hx
    simp [hu] at hresp
  · obtain rfl : s.reject c' = t := by simpa [hrej] using hx
    obtain ⟨rfl, rfl⟩ : c' = c ∧ 0 = v := by simpa using hresp
    exact ⟨rfl, rfl⟩

/-- Settles O9: taking the packet touches the host's side only, and rejecting it only answers. -/
theorem rejectedPacketChangesNothing : Obligations.RejectedPacketChangesNothing := by
  refine ⟨fun s s' p c hf hd => ?_, fun _ _ _ _ _ => eq_reject_of_responds_error⟩
  obtain ⟨hparams, hcfg, hfb, htk, hresponses, hresets⟩ := fetch_frame (.inl ⟨p, hf⟩)
  refine ⟨s'.reject c, (step_of_fetch_packet hf).trans (runPacket_error hd s'), ?_, hparams, hcfg, hfb, htk, hresets,
    fun a => ?_⟩
  · rw [State.reject_responses, hresponses]
  · rw [State.reject_byte, State.byte, State.byte, hfb, hresets]

end Sys2Proof.Machine
end

section
/-! PROOFS of the statements about reset and hazards (70_reset_and_hazards.md): the block right after reset and what a reset
latches (R170-R174, R181), the block that waits (R174), direct writes and an advance (R177), and time going backwards
(R178). -/

namespace Sys2Proof

/-! ### The default parameters (R101, R102, R104) -/

/-- Every glyph of the default ROM has a width in 1..8, the free ones by the type of their draw (R102). -/
theorem romGlyph_width_bounds (aUmlaut g : GlyphIndex) :
    1 ≤ (romGlyph aUmlaut g).width ∧ (romGlyph aUmlaut g).width ≤ 8 := by
  unfold romGlyph
  split
  next => decide
  next =>
    split
    next => decide
    next => exact ⟨Nat.le_add_left 1 _, (Config.romWidthLessOne g).isLt⟩

theorem getElem_defaultRom (g : GlyphIndex) : Params.default.rom[g] = romGlyph defaultAccentIndex.smallA g :=
  Vector.getElem_ofFn g.isLt

/-- A block can be built from the default parameters, whatever the free glyphs are (R102, R104). -/
theorem Params.default_legal : Params.default.legal = true := by
  have hrom : Params.default.romLegal = true := by
    refine Params.default.romLegal_iff.mpr ⟨fun g => ?_, getElem_defaultRom glyphIndexA,
      getElem_defaultRom defaultAccentIndex.smallA⟩
    rw [getElem_defaultRom]
    exact romGlyph_width_bounds _ g
  have hpairs : Params.default.pairsDistinct = true := by decide
  have haccents : Params.default.accentsLegal = true := by decide
  rw [Params.legal, hrom, hpairs, haccents]
  rfl

namespace Machine

/-! ### The block right after reset (R170-R174) -/

/-- A block just reset with legal parameters and a legal `cfg_n` meets the invariant, whatever its draws are. -/
theorem State.afterReset_inv {p : Params} {pins : Cfg} (hp : p.legal = true) (hn : pins.n ≠ 0) (k : Nat) :
    (State.afterReset p pins k).Inv :=
  (State.inv_iff _).mpr ⟨hp, hn, Memory.Valid.nil pins,
    Ticker.valid_of_inactive (Ticker.afterReset_active k) (Ticker.afterReset_glyph_length k)⟩

/-- Settles O48: the default parameters are legal and `defaultPins` has one module. -/
theorem invariantHoldsAtReset : Obligations.InvariantHoldsAtReset :=
  State.afterReset_inv Params.default_legal (by decide) 0

/-- A block that is built is the one right after its reset number 0. -/
theorem State.eq_afterReset_of_build {p : Params} {pins : Cfg} {s : State} (h : State.build p pins = .ok s) :
    s = State.afterReset p pins 0 := by
  unfold State.build at h
  split at h <;> cases h
  rfl

theorem State.build_error {p : Params} {pins : Cfg} {r : Refusal} (h : State.build p pins = .error r) :
    r = .invalidConfiguration := by
  unfold State.build at h
  split at h <;> cases h
  rfl

/-- Settles O57: what is built is the block right after reset, from parameters and a `cfg_n` that are legal. -/
theorem builtBlockIsResetAndMeetsTheInvariant : Obligations.BuiltBlockIsResetAndMeetsTheInvariant := by
  refine fun p pins => ⟨fun s hs => ?_, fun r => State.build_error⟩
  obtain ⟨hn, hp⟩ := (State.build_ok_iff p pins).mp ⟨s, hs⟩
  obtain rfl := State.eq_afterReset_of_build hs
  exact ⟨rfl, rfl, rfl, fun _ => rfl, rfl, State.afterReset_inv hp hn 0⟩

/-! ### A later reset (R170, R172, R173, R181) -/

/-- A step that takes a reset resets the block. -/
theorem step_of_fetch_reset {s s' : State} {pins : Cfg} (h : fetch s = .reset pins s') :
    step s = resetBlock pins s' := by
  unfold step
  rw [h]

theorem resetBlock_of_ne_zero {pins : Cfg} (h : pins.n ≠ 0) (s : State) : resetBlock pins s = .next (s.latch pins) :=
  if_neg h

theorem resetBlock_of_eq_zero {pins : Cfg} (h : pins.n = 0) (s : State) :
    resetBlock pins s = .refused .invalidConfiguration :=
  if_pos h

/-- Settles O55: taking the reset keeps the parameters, and `State.latch` gives the rest. -/
theorem resetLatchesTheInputs : Obligations.ResetLatchesTheInputs := by
  intro s s' pins hf
  obtain ⟨hparams, -⟩ := fetch_frame (.inr (.inr ⟨pins, hf⟩))
  rw [step_of_fetch_reset hf]
  exact ⟨fun hn => ⟨s'.latch pins, resetBlock_of_ne_zero hn s', rfl, rfl, rfl, rfl, rfl, hparams, fun _ => rfl⟩,
    fun hn => resetBlock_of_eq_zero hn s'⟩

/-! ### Waiting for a whole packet (R62, R163, R174) -/

/-- With no whole packet received, the host's next input is taken. -/
theorem fetch_of_no_frame {s : State} (h : frame s.rx = none) : fetch s = takeInput s := by
  unfold fetch
  rw [h]

theorem takeInput_of_nil {s : State} (h : s.pending = []) : takeInput s = .idle := by
  unfold takeInput
  rw [h]

theorem takeInput_of_link {s : State} {now : Word} {bytes : List Byte} {t : List Input}
    (h : s.pending = .link now bytes :: t) :
    takeInput s = .received { s with pending := t, now := now, rx := s.rx ++ bytes } := by
  unfold takeInput
  rw [h]

theorem step_of_fetch_idle {s : State} (h : fetch s = .idle) : step s = .next s := by
  unfold step
  rw [h]

theorem step_of_fetch_received {s s' : State} (h : fetch s = .received s') : step s = .next s' := by
  unfold step
  rw [h]

/-- Settles O59: the step has nothing to fetch, or fetches the link's bytes. -/
theorem blockWaitsForAWholePacket : Obligations.BlockWaitsForAWholePacket :=
  ⟨fun _ hrx hp => step_of_fetch_idle ((fetch_of_no_frame hrx).trans (takeInput_of_nil hp)),
    fun _ _ _ _ hrx hp => step_of_fetch_received ((fetch_of_no_frame hrx).trans (takeInput_of_link hp))⟩

/-! ### Direct writes and an advance (R177, R135) -/

/-- A byte of the display is what its eight pixels are, so frame buffers with the same pixels share it. -/
theorem byte_congr_of_pixel_inside {c : Cfg} {k : Nat} {m m' : Memory}
    (hpixel : ∀ x y, inDisplay c x y → pixel c k m x y = pixel c k m' x y) {a : Nat} (ha : a < fbSize c) :
    m.byte k a = m'.byte k a := by
  refine BitVec.eq_of_getLsbD_eq fun j hj => ?_
  obtain ⟨hd, hoff, hbit⟩ := inverseTransform_inDisplay_phys ha hj
  have hread := hpixel _ _ hd
  rwa [pixel_in hd, pixel_in hd, hoff, hbit] at hread

/-- An advance clears FB before it draws, so no pixel of its frame depends on what FB held. -/
theorem pixel_advance_setFb (s : State) (m : Memory) {x y : Int} (hd : inDisplay s.cfg x y) :
    (advance (s.setFb m)).pixel x y = (advance s).pixel x y := by
  obtain ⟨r, rfl⟩ := exists_row_of_inDisplay hd
  exact (pixel_advance (s.setFb m) x r hd).trans (pixel_advance s x r hd).symm

/-- Settles O46: both polls are advances, whose TK does not read FB and whose frames have the same pixels. -/
theorem advanceForgetsDirectWrites : Obligations.AdvanceForgetsDirectWrites := by
  intro s m hactive hdue
  refine ⟨_, _, exec_pollTicker_of_due hactive hdue, exec_pollTicker_of_due (s := s.setFb m) hactive hdue, rfl,
    fun a ha => ?_⟩
  exact byte_congr_of_pixel_inside (c := s.cfg) (fun x y hd => (pixel_advance_setFb s m hd).symm) ha

/-! ### Time going backwards (R178, R131) -/

/-- Elapsed wraps: d ms back is 2^32 - d ms forward. -/
theorem elapsedMs_of_now_eq_sub {s : State} {d : Word} (hd : d ≠ 0) (hnow : s.now = s.tk.last - d) :
    elapsedMs s = 2 ^ 32 - d.toNat := by
  have hneg : elapsed s = -d := by rw [elapsed, hnow, sub_sub_cancel_left]
  rw [← elapsed_toNat, hneg]
  exact BitVec.toNat_neg_of_pos ((BitVec.pos_iff_ne_zero d).mpr hd)

/-- Settles O47: Elapsed is 2^32 - d, and the poll advances or waits by comparing the interval with it. -/
theorem timeGoingBackwardsWrapsElapsed : Obligations.TimeGoingBackwardsWrapsElapsed := by
  intro s d hd hnow hactive
  have helapsed := elapsedMs_of_now_eq_sub hd hnow
  refine ⟨helapsed, ?_⟩
  rw [← helapsed]
  rcases Nat.lt_or_ge (elapsedMs s) s.tk.interval.toNat with hearly | hdue
  · exact ⟨s.respond 0, pollThatWaitsChangesNothing s (.inr hearly), .inr ⟨hearly, rfl⟩⟩
  · exact ⟨(advance s).respond 1, exec_pollTicker_of_due hactive hdue, .inl ⟨hdue, rfl⟩⟩

end Machine

end Sys2Proof
end
